-- ==== Sys2Proof/Word.lean ====
section
/-!
DEFINITION. The word types of SYNACOR-CORE and the two operand forms an instruction holds.
-/

namespace Sys2Proof

/-- A byte of the program image; bytes exist only at the loader (R51). -/
abbrev Byte := BitVec 8

/-- A Word: the 15-bit unsigned value of a register, of an ALU result, of a resolved operand (R12). -/
abbrev Word := BitVec 15

/-- A Cell: one 16-bit memory location (R28). The pc, `FAULT_PC`, `FAULT_INFO` and the stack's
entries have this width too (R7, R29). -/
abbrev Cell := BitVec 16

/-- The index of one of the eight general registers (R21). -/
abbrev RegIdx := Fin 8

/-- A source operand word, sorted as `Resolve` sorts it (R80). -/
inductive Src where
  /-- A word in 0..32767: the literal it is (R80, R83). -/
  | lit (v : Word)
  /-- A word in 32768..32775: register 0..7 (R80). -/
  | reg (r : RegIdx)
  /-- A word in 32776..65535: no operand; resolving it raises `BAD_OPERAND` (R81). -/
  | undef (w : Cell)
deriving DecidableEq, Repr

/-- A destination operand word, sorted as `DestIdx` sorts it (R82). -/
inductive Dest where
  /-- A word in 32768..32775: register 0..7. -/
  | reg (r : RegIdx)
  /-- Any other word: decoding the destination raises `BAD_DEST`. -/
  | notReg (w : Cell)
deriving DecidableEq, Repr

end Sys2Proof
end

