-- ==== Sys2Proof/Config.lean ====
section
/-!
DEFINITION. The implementation parameters of 00_scope.md rule R7, and the type of the one open
parameter, `STACK_CAPACITY` (R8). The spec leaves no value open beside it, so there is no free value.
-/

namespace Sys2Proof

/-- `STACK_CAPACITY` (R8): `unbounded`, the source's value, or a stack memory of `n ≥ 1` entries; a
capacity of 0 cannot be written down. The value is carried by the state and never changes (log
entry 4). -/
inductive StackCapacity where
  | unbounded
  | entries (n : Nat) (atLeastOne : 1 ≤ n)
deriving DecidableEq, Repr

/-- `MEM_WORDS` (R7): memory is the cells at addresses 0..32767. -/
def Config.memWords : Nat := 32768

/-- `MAX_ARITY` and the opcode word: the longest instruction has four words (R70, R7). -/
def Config.maxInstrWords : Nat := 4

/-- `IN_CHAR_MAX` (R7): a larger input code point faults (R213). -/
def Config.inCharMax : Nat := 32767

end Sys2Proof
end

