-- ==== Sys2Proof/Syntax.lean ====
section
/-!
DEFINITION. The instructions of SYNACOR-22: one constructor per row of the opcode table (R74), its
arguments the operands in encoded order (R71), a `Dest` in a D position and a `Src` in an S position
(R73). The row `in` is the constructor `inp`, because `in` is a word of Lean's own.
-/

namespace Sys2Proof

inductive Instr where
  | halt
  | set (d : Dest) (a : Src)
  | push (a : Src)
  | pop (d : Dest)
  | eq (d : Dest) (a b : Src)
  | gt (d : Dest) (a b : Src)
  | jmp (a : Src)
  | jt (a b : Src)
  | jf (a b : Src)
  | add (d : Dest) (a b : Src)
  | mult (d : Dest) (a b : Src)
  | mod (d : Dest) (a b : Src)
  | and (d : Dest) (a b : Src)
  | or (d : Dest) (a b : Src)
  | not (d : Dest) (a : Src)
  | rmem (d : Dest) (a : Src)
  | wmem (a b : Src)
  | call (a : Src)
  | ret
  | out (a : Src)
  | inp (d : Dest)
  | noop
deriving DecidableEq, Repr

end Sys2Proof
end

