-- ==== Sys2Proof/WellFormed.lean ====
section
/-!
DEFINITION. Two checks on an instruction. `WellFormed` refuses the operand encodings that R85 calls
illegal. `Encodable` is weaker: it admits an illegal operand word too, but only where R80 and R82
sort that word as illegal, so that the encodable instructions are exactly the ones with words.
-/

namespace Sys2Proof

/-- A legal source operand word (R85): a literal or a register. -/
def Src.legal : Src → Bool
  | .lit _ => true
  | .reg _ => true
  | .undef _ => false

/-- A legal destination operand word (R85): a register. -/
def Dest.legal : Dest → Bool
  | .reg _ => true
  | .notReg _ => false

/-- `undef w` stands for a source word only when `w` is above 32775 (R80). -/
def Src.encodable : Src → Bool
  | .lit _ => true
  | .reg _ => true
  | .undef w => decide (32775 < w.toNat)

/-- `notReg w` stands for a destination word only when `w` is outside 32768..32775 (R82). -/
def Dest.encodable : Dest → Bool
  | .reg _ => true
  | .notReg w => decide (w.toNat < 32768 ∨ 32775 < w.toNat)

/-- The destination operands of an instruction (the D positions of R74). -/
def Instr.dests : Instr → List Dest
  | .halt | .push _ | .jmp _ | .jt _ _ | .jf _ _ | .wmem _ _ | .call _ | .ret | .out _ | .noop => []
  | .set d _ | .pop d | .eq d _ _ | .gt d _ _ | .add d _ _ | .mult d _ _ | .mod d _ _
  | .and d _ _ | .or d _ _ | .not d _ | .rmem d _ | .inp d => [d]

/-- The source operands of an instruction, left to right (the S positions of R74). -/
def Instr.srcs : Instr → List Src
  | .halt | .ret | .noop | .pop _ | .inp _ => []
  | .set _ a | .push a | .jmp a | .not _ a | .rmem _ a | .call a | .out a => [a]
  | .eq _ a b | .gt _ a b | .jt a b | .jf a b | .add _ a b | .mult _ a b | .mod _ a b
  | .and _ a b | .or _ a b | .wmem a b => [a, b]

/-- No operand word is one of R85's illegal encodings. -/
def Instr.wellFormed (i : Instr) : Bool := i.dests.all Dest.legal && i.srcs.all Src.legal

abbrev Instr.WellFormed (i : Instr) : Prop := i.wellFormed = true

/-- Some words are this instruction's encoding. -/
def Instr.encodable (i : Instr) : Bool := i.dests.all Dest.encodable && i.srcs.all Src.encodable

abbrev Instr.Encodable (i : Instr) : Prop := i.encodable = true

end Sys2Proof
end

