-- ==== Sys2Proof/Decode.lean ====
section
/-!
DEFINITION. The decoder and the encoder of 30_encoding.md. An instruction's words are cells, the
opcode first (R70); the decoder is total on every list of cells and rejects by name.
-/

namespace Sys2Proof

/-- A Word in a cell: bits 14..0, bit 15 clear (`zext_16` of R9). -/
def zext16 (v : Word) : Cell := v.setWidth 16

/-- The low 15 bits of a cell. -/
def low15 (c : Cell) : Word := c.setWidth 15

/-- The operand word that names register `r` (R21: register i is 32768+i). -/
def regCell (r : RegIdx) : Cell := BitVec.ofNat 16 (32768 + r.val)

/-- The register that a word in 32768..32775 names (R80, R82). -/
def cellReg (w : Cell) : RegIdx := Fin.ofNat 8 (w.toNat - 32768)

/-- Sorts a source operand word by the three cases of R80. -/
def Src.ofCell (w : Cell) : Src :=
  if w.toNat ≤ 32767 then .lit (low15 w)
  else if w.toNat ≤ 32775 then .reg (cellReg w)
  else .undef w

/-- Sorts a destination operand word by the two cases of R82. -/
def Dest.ofCell (w : Cell) : Dest :=
  if 32768 ≤ w.toNat ∧ w.toNat ≤ 32775 then .reg (cellReg w) else .notReg w

/-- The word of a source operand. -/
def Src.toCell : Src → Cell
  | .lit v => zext16 v
  | .reg r => regCell r
  | .undef w => w

/-- The word of a destination operand. -/
def Dest.toCell : Dest → Cell
  | .reg r => regCell r
  | .notReg w => w

/-- Why a list of cells is not an instruction. -/
inductive DecodeReject where
  /-- The opcode word is not in 0..21 (R72). -/
  | unknownOpcode (w : Cell)
  /-- The cells end after `present` words of the instruction; the next word is missing (R101). -/
  | truncated (present : Nat)
deriving DecidableEq, Repr

/-- What the decoder answers: the instruction and the cells after it. -/
abbrev Decoded := Except DecodeReject (Instr × List Cell)

/-- Format F0 (R71). -/
def takeF0 (i : Instr) (ws : List Cell) : Decoded := .ok (i, ws)

/-- Format F1 (R71): one operand word. -/
def takeF1 (f : Cell → Instr) : List Cell → Decoded
  | [] => .error (.truncated 1)
  | w1 :: ws => .ok (f w1, ws)

/-- Format F2 (R71): two operand words. -/
def takeF2 (f : Cell → Cell → Instr) : List Cell → Decoded
  | [] => .error (.truncated 1)
  | [_] => .error (.truncated 2)
  | w1 :: w2 :: ws => .ok (f w1 w2, ws)

/-- Format F3 (R71): three operand words. -/
def takeF3 (f : Cell → Cell → Cell → Instr) : List Cell → Decoded
  | [] => .error (.truncated 1)
  | [_] => .error (.truncated 2)
  | [_, _] => .error (.truncated 3)
  | w1 :: w2 :: w3 :: ws => .ok (f w1 w2 w3, ws)

/-- An operand pattern D S S. -/
def dss (f : Dest → Src → Src → Instr) (w1 w2 w3 : Cell) : Instr :=
  f (.ofCell w1) (.ofCell w2) (.ofCell w3)

/-- An operand pattern D S. -/
def ds (f : Dest → Src → Instr) (w1 w2 : Cell) : Instr := f (.ofCell w1) (.ofCell w2)

/-- An operand pattern S S. -/
def ss (f : Src → Src → Instr) (w1 w2 : Cell) : Instr := f (.ofCell w1) (.ofCell w2)

/-- Reads the operand words that the opcode word `op` selects off the front of `ws`: the opcode word
selects the row of R74, and the row's format and operand roles say how many words follow and how each
is sorted. -/
def decodeOp (op : Cell) (ws : List Cell) : Decoded :=
  match op.toNat with
  | 0 => takeF0 .halt ws
  | 1 => takeF2 (ds .set) ws
  | 2 => takeF1 (fun w1 => .push (.ofCell w1)) ws
  | 3 => takeF1 (fun w1 => .pop (.ofCell w1)) ws
  | 4 => takeF3 (dss .eq) ws
  | 5 => takeF3 (dss .gt) ws
  | 6 => takeF1 (fun w1 => .jmp (.ofCell w1)) ws
  | 7 => takeF2 (ss .jt) ws
  | 8 => takeF2 (ss .jf) ws
  | 9 => takeF3 (dss .add) ws
  | 10 => takeF3 (dss .mult) ws
  | 11 => takeF3 (dss .mod) ws
  | 12 => takeF3 (dss .and) ws
  | 13 => takeF3 (dss .or) ws
  | 14 => takeF2 (ds .not) ws
  | 15 => takeF2 (ds .rmem) ws
  | 16 => takeF2 (ss .wmem) ws
  | 17 => takeF1 (fun w1 => .call (.ofCell w1)) ws
  | 18 => takeF0 .ret ws
  | 19 => takeF1 (fun w1 => .out (.ofCell w1)) ws
  | 20 => takeF1 (fun w1 => .inp (.ofCell w1)) ws
  | 21 => takeF0 .noop ws
  | _ => .error (.unknownOpcode op)

/-- Reads one instruction off the front of a list of cells, the opcode word first (R70). -/
def decode : List Cell → Decoded
  | [] => .error (.truncated 0)
  | op :: ws => decodeOp op ws

/-- The words of an instruction, from the encoding line of its own rule (R130 to R211). -/
def encode : Instr → List Cell
  | .halt => [0]
  | .set d a => [1, d.toCell, a.toCell]
  | .push a => [2, a.toCell]
  | .pop d => [3, d.toCell]
  | .eq d a b => [4, d.toCell, a.toCell, b.toCell]
  | .gt d a b => [5, d.toCell, a.toCell, b.toCell]
  | .jmp a => [6, a.toCell]
  | .jt a b => [7, a.toCell, b.toCell]
  | .jf a b => [8, a.toCell, b.toCell]
  | .add d a b => [9, d.toCell, a.toCell, b.toCell]
  | .mult d a b => [10, d.toCell, a.toCell, b.toCell]
  | .mod d a b => [11, d.toCell, a.toCell, b.toCell]
  | .and d a b => [12, d.toCell, a.toCell, b.toCell]
  | .or d a b => [13, d.toCell, a.toCell, b.toCell]
  | .not d a => [14, d.toCell, a.toCell]
  | .rmem d a => [15, d.toCell, a.toCell]
  | .wmem a b => [16, a.toCell, b.toCell]
  | .call a => [17, a.toCell]
  | .ret => [18]
  | .out a => [19, a.toCell]
  | .inp d => [20, d.toCell]
  | .noop => [21]

/-- The role of an operand position (R73). -/
inductive Role where
  | D
  | S
deriving DecidableEq, Repr

/-- One row of the opcode table of R74. -/
structure OpRow where
  mnemonic : String
  roles : List Role
deriving DecidableEq, Repr

/-- The opcode table of R74, in opcode order from 0. -/
def opTable : List OpRow :=
  [⟨"halt", []⟩, ⟨"set", [.D, .S]⟩, ⟨"push", [.S]⟩, ⟨"pop", [.D]⟩, ⟨"eq", [.D, .S, .S]⟩,
   ⟨"gt", [.D, .S, .S]⟩, ⟨"jmp", [.S]⟩, ⟨"jt", [.S, .S]⟩, ⟨"jf", [.S, .S]⟩,
   ⟨"add", [.D, .S, .S]⟩, ⟨"mult", [.D, .S, .S]⟩] ++
  [⟨"mod", [.D, .S, .S]⟩, ⟨"and", [.D, .S, .S]⟩, ⟨"or", [.D, .S, .S]⟩, ⟨"not", [.D, .S]⟩,
   ⟨"rmem", [.D, .S]⟩, ⟨"wmem", [.S, .S]⟩, ⟨"call", [.S]⟩, ⟨"ret", []⟩, ⟨"out", [.S]⟩,
   ⟨"in", [.D]⟩, ⟨"noop", []⟩]

/-- The arity an opcode word selects, where the word is an opcode (R76). -/
def arityOf (op : Cell) : Option Nat := (opTable[op.toNat]?).map fun row => row.roles.length

/-- How many operand words an instruction has (R70). -/
def Instr.arity (i : Instr) : Nat := i.dests.length + i.srcs.length

/-- The cells of an instruction whose bits are `w`, bit 0 the least significant bit of the first
word and each later word's bits counting on from it; every bit from `nbits` up is 0. -/
def tableCells (nbits w : Nat) : List Cell :=
  let v := w % 2 ^ nbits
  [BitVec.ofNat 16 v, BitVec.ofNat 16 (v / 2 ^ 16), BitVec.ofNat 16 (v / 2 ^ 32),
   BitVec.ofNat 16 (v / 2 ^ 48)]

/-- The instruction the decoder reads from the bits `w` of a row of the opcode table. -/
def decodeTableWord (nbits w : Nat) : Option Instr :=
  match decode (tableCells nbits w) with
  | .ok (i, _) => some i
  | .error _ => none

end Sys2Proof
end

