-- ==== Sys2Proof/Machine/State.lean ====
section
/-!
DEFINITION. The state of SYNACOR-CORE (R20), the host's side of it that the model carries along, and
the state after reset (R270). Plain data throughout.
-/

namespace Sys2Proof.Machine

/-- Memory as the list of its cells that are not as reset leaves them (log entries 1 and 2): pairs of
a word address and a cell, addresses strictly rising, no cell equal to `Memory.unlisted`
(`Memory.wf`). R28, R50. -/
abbrev Memory := List (Nat × Cell)

/-- The field `STATUS.state` (R30). -/
inductive RunState where
  | running
  | waitInput
  | halted
  | faulted
deriving DecidableEq, Repr

/-- The field `STATUS.halt_reason` (R29); its value 0 is `none` of the field's type. -/
inductive HaltReason where
  /-- 1: the `halt` instruction. -/
  | haltInstr
  /-- 2: `ret` on an empty stack. -/
  | retEmpty
deriving DecidableEq, Repr

/-- The fault causes of R31, in the order of their codes 1..8. -/
inductive FaultCause where
  | unknownOpcode
  | stackEmpty
  | badOperand
  | badDest
  | divZero
  | fetchRange
  | wideValue
  | stackOverflow
deriving DecidableEq, Repr

/-- A snapshot (R252), as the host holds it: the four fields as plain numbers, the stack from the
bottom entry to the top entry. A host may hand back any such value, so nothing bounds them here;
`Snapshot.valid` does (R253). -/
structure Snapshot where
  pc : Nat
  x : List Nat
  stack : List Nat
  mem : List Nat
deriving DecidableEq, Repr

/-- What `ReadStatus()` returns (R256). -/
structure StatusReport where
  status : Cell
  faultPc : Cell
  faultInfo : Cell
deriving DecidableEq, Repr

/-- A host operation of R250 that acts on a core which has been loaded. -/
inductive HostOp where
  /-- `Deliver(c)`: c is a natural-number code point (R213). -/
  | deliver (c : Nat)
  /-- `Snapshot()` (R252). -/
  | snapshot
  /-- `Restore(s)`; `none` is a missing or unreadable snapshot (R253, U3). -/
  | restore (p : Option Snapshot)
  /-- `WriteReg7(v)`; `none` is a v that is not an integer (R254). -/
  | writeReg7 (v : Option Int)
  /-- `ReadStatus()` (R256). -/
  | readStatus
deriving DecidableEq, Repr

/-- What a host operation reports to the host. -/
inductive HostReply where
  | snapshotTaken (p : Snapshot)
  | restored
  /-- The host reports PersistenceError (R253). -/
  | persistenceError
  | reg7Written
  | reg7Refused
  | status (r : StatusReport)
deriving DecidableEq, Repr

/-- The machine's state. The fields down to `inDest` are the spec's ("exactly this", R20). The last
four are the model's own: the parameter of R8 and the host's side of R214, R215 and R250 (log entries
4, 5 and 6). -/
structure State where
  /-- The program counter, 0..32768 (R24). -/
  pc : Cell
  /-- The register file `x[0..7]` (R21). -/
  x : Vector Word 8
  /-- The stack; its head is the top entry (R27, log entry 8). -/
  stack : List Cell
  /-- The memory (R28). -/
  mem : Memory
  /-- `STATUS.state` (R29, R30). -/
  runState : RunState
  /-- `STATUS.halt_reason`; `none` is its value 0 (R29). -/
  haltReason : Option HaltReason
  /-- `STATUS.fault_cause`; `none` is its value 0 (R29, R31). -/
  faultCause : Option FaultCause
  /-- `FAULT_PC` (R29). -/
  faultPc : Cell
  /-- `FAULT_INFO` (R29). -/
  faultInfo : Cell
  /-- The input-wait latch `in_dest` (R32). -/
  inDest : RegIdx
  /-- The parameter `STACK_CAPACITY` (R8); no step changes it. -/
  stackCapacity : StackCapacity
  /-- The host operations still to come, the next one first (R214, R250). -/
  hostOps : List HostOp
  /-- The output stream so far, in program order (R215). -/
  output : List Word
  /-- What the host operations have reported so far, in order (R252 to R256). -/
  replies : List HostReply
deriving DecidableEq, Repr

/-- Why there is no next state. No instruction's meaning ends so: `step` answers with one of these
where R100 says that the core has no step and the host has no enabled operation queued. -/
inductive Fault where
  /-- Raised by `step` in HALTED, a final state (R236), unless a status read is next. Safe: the
  hardware has no step there either. -/
  | halted
  /-- Raised by `step` in FAULTED, a final state (R236), unless a status read is next. Safe: the
  hardware has no step there either. -/
  | faulted
  /-- Raised by `step` in WAIT_INPUT when no host operation is queued: the core is stuck (R237).
  Safe: the hardware stays in WAIT_INPUT until the host acts. -/
  | awaitingHost
deriving DecidableEq, Repr

/-- Why an instruction has no meaning. -/
inductive Refusal where
  /-- Raised by `exec` for an instruction not modelled yet. Safe: the model stops. No arm of `exec`
  raises it now. -/
  | notModelled (mnemonic : String)
deriving DecidableEq, Repr

/-- The three outcomes of a step of this machine. -/
abbrev Result := Host.Outcome State Fault Refusal

/-- The state right after reset (R270) with the empty image, whose load leaves every cell 0 (R271):
`STACK_CAPACITY` is the source's `unbounded` (log entry 4), and the host has not acted yet (log
entries 5 and 6). -/
def State.reset : State where
  pc := 0
  x := Vector.replicate 8 0
  stack := []
  mem := []
  runState := .running
  haltReason := none
  faultCause := none
  faultPc := 0
  faultInfo := 0
  inDest := 0
  stackCapacity := .unbounded
  hostOps := []
  output := []
  replies := []

end Sys2Proof.Machine
end

