-- ==== Sys2Proof/Machine/Ops.lean ====
section
/-!
DEFINITION. The named operations over memory, registers, stack and pc, and the two ways a run ends:
`raise Fault` (R232) and `Halt` (R231). Every instruction and every host operation is written over
these. Nothing returns from a fault (R230), so there is no return operation beside it.
-/

namespace Sys2Proof.Machine

/-- What a cell that no entry lists holds: 0, as the loader leaves it (R270, R271; log entry 2). -/
def Memory.unlisted : Cell := 0

/-- `MemRead(a, 1)` (R10). -/
def Memory.read : Memory → Nat → Cell
  | [], _ => Memory.unlisted
  | (k, c) :: m, a => if a = k then c else Memory.read m a

/-- An entry in front of a memory whose addresses are all higher, left out where it would say what an
unlisted cell holds anyway. -/
def Memory.cons (a : Nat) (c : Cell) (m : Memory) : Memory :=
  if c = Memory.unlisted then m else (a, c) :: m

/-- `MemWrite(a, 1, c)` (R10), keeping the canonical form. -/
def Memory.write : Memory → Nat → Cell → Memory
  | [], a, c => Memory.cons a c []
  | (k, d) :: m, a, c =>
    if a < k then Memory.cons a c ((k, d) :: m)
    else if a = k then Memory.cons a c m
    else (k, d) :: Memory.write m a c

/-- The canonical form from address `lo` on: addresses in `lo..32767`, strictly rising, no entry that
says what an unlisted cell holds. -/
def Memory.wfFrom : Nat → Memory → Bool
  | _, [] => true
  | lo, (k, c) :: m =>
    decide (lo ≤ k) && decide (k < Config.memWords) && decide (c ≠ Memory.unlisted)
      && Memory.wfFrom (k + 1) m

/-- The canonical form of a whole memory. -/
def Memory.wf (m : Memory) : Bool := Memory.wfFrom 0 m

/-- The memory that holds the cells `cs` at consecutive addresses from `a`, and 0 elsewhere. -/
def Memory.ofCells : Nat → List Cell → Memory
  | _, [] => []
  | a, c :: cs => Memory.cons a c (Memory.ofCells (a + 1) cs)

/-- All 32768 cells, in address order. -/
def Memory.toCells (m : Memory) : List Cell := (List.range Config.memWords).map m.read

/-- The cells at `a, a+1, …`, at most `n` of them, stopping at the end of memory: what fetch can read
from `a` (R101, R102). -/
def Memory.fetchCells (m : Memory) : Nat → Nat → List Cell
  | 0, _ => []
  | n + 1, a => if a < Config.memWords then m.read a :: m.fetchCells n (a + 1) else []

/-- Stores `cs` at consecutive addresses from `a`; a cell beyond the end of memory is dropped. -/
def Memory.store (m : Memory) : Nat → List Cell → Memory
  | _, [] => m
  | a, c :: cs => Memory.store (if a < Config.memWords then m.write a c else m) (a + 1) cs

/-- Reads register `r` (R10, R21). -/
def State.reg (s : State) (r : RegIdx) : Word := s.x[r]

/-- Writes register `r` (R10, R21). -/
def State.setReg (s : State) (r : RegIdx) (v : Word) : State := { s with x := s.x.set r.val v r.isLt }

/-- Writes one cell of memory. -/
def State.writeCell (s : State) (a : Word) (c : Cell) : State :=
  { s with mem := s.mem.write a.toNat c }

/-- The address `A + words`: `next`, for an instruction of `words` words at `A = pc` (R10, R105). -/
def State.next (s : State) (words : Nat) : Cell := s.pc + BitVec.ofNat 16 words

/-- `pc <- next`, the end of an instruction of `words` words that transfers no control (R105). -/
def State.advance (s : State) (words : Nat) : State := { s with pc := s.next words }

/-- `pc <- v` for a resolved target (R25). -/
def State.jump (s : State) (v : Word) : State := { s with pc := zext16 v }

/-- `Push(c)` (R10). -/
def State.push (s : State) (c : Cell) : State := { s with stack := c :: s.stack }

/-- The number of entries a stack may have, where it is bounded (R8). -/
def StackCapacity.limit : StackCapacity → Option Nat
  | .unbounded => none
  | .entries n _ => some n

/-- `STACK_CAPACITY ≠ unbounded and Depth() = STACK_CAPACITY`: the stack is full (R141, R200). -/
def StackCapacity.full (cap : StackCapacity) (depth : Nat) : Bool :=
  match StackCapacity.limit cap with
  | none => false
  | some n => decide (depth = n)

/-- A stack of `depth` entries fits (R253). -/
def StackCapacity.fits (cap : StackCapacity) (depth : Nat) : Bool :=
  match StackCapacity.limit cap with
  | none => true
  | some n => decide (depth ≤ n)

/-- A push would raise `STACK_OVERFLOW`. -/
def State.stackFull (s : State) : Bool := StackCapacity.full s.stackCapacity s.stack.length

/-- `raise Fault(cause, info)` (R232): the run ends FAULTED, `FAULT_PC` holds `A`, which is still the
pc, and nothing else changes (R106). -/
def State.raiseFault (s : State) (cause : FaultCause) (info : Cell) : State :=
  { s with runState := .faulted, faultCause := some cause, faultPc := s.pc, faultInfo := info }

/-- `Halt(reason)` (R231): the run ends HALTED, and nothing else changes. -/
def State.haltWith (s : State) (reason : HaltReason) : State :=
  { s with runState := .halted, haltReason := some reason }

/-- `OutWrite(v)` (R215): v goes to the end of the output stream. -/
def State.outWrite (s : State) (v : Word) : State := { s with output := s.output ++ [v] }

/-- Ends an instruction in a raised fault: the exception is taken, and the faulted state is next. -/
def fault (s : State) (cause : FaultCause) (info : Cell) : Result := .next (s.raiseFault cause info)

/-- The overflow check and the push that `push` and `call` share (R141, R200). -/
def withPush (s : State) (c : Cell) (k : State → Result) : Result :=
  if s.stackFull then fault s .stackOverflow 0 else k (s.push c)

/-- The check of a 16-bit value bound for a register that `pop` and `rmem` share (R142, R190): above
32767 it raises `WIDE_VALUE`, else its low 15 bits are the Word (R22). -/
def withWord (s : State) (c : Cell) (k : Word → Result) : Result :=
  if 32767 < c.toNat then fault s .wideValue c else k (low15 c)

/-- Puts the words of one instruction where the next fetch reads them: the cells from the pc on, with
the core RUNNING, as a fetch needs (R100). -/
def State.placeWords (s : State) (cs : List Cell) : State :=
  { s with mem := s.mem.store s.pc.toNat cs, runState := .running }

end Sys2Proof.Machine
end

