-- ==== Sys2Proof/Machine/Operands.lean ====
section
/-!
DEFINITION. The operand value resolver (R80) and the destination decode (R82): every operand form, and
the fault each raises. A meaning takes its operands left to right (R103), all of them before its
first write (R104).
-/

namespace Sys2Proof.Machine

/-- `Resolve(w)` (R80): the operand's value, or the word that raises `BAD_OPERAND`. -/
def State.resolve (s : State) : Src → Except Cell Word
  | .lit v => .ok v
  | .reg r => .ok (s.reg r)
  | .undef w => .error w

/-- Takes a source operand: goes on with its value, or raises `BAD_OPERAND` (R81). -/
def withSrc (s : State) (a : Src) (k : Word → Result) : Result :=
  match s.resolve a with
  | .ok v => k v
  | .error w => fault s .badOperand w

/-- Takes a destination operand: goes on with its register, or raises `BAD_DEST` (R82). -/
def withDest (s : State) (d : Dest) (k : RegIdx → Result) : Result :=
  match d with
  | .reg r => k r
  | .notReg w => fault s .badDest w

/-- Operand pattern D S S. -/
def withDSS (s : State) (d : Dest) (a b : Src) (k : RegIdx → Word → Word → Result) : Result :=
  withDest s d fun r => withSrc s a fun va => withSrc s b fun vb => k r va vb

/-- Operand pattern D S. -/
def withDS (s : State) (d : Dest) (a : Src) (k : RegIdx → Word → Result) : Result :=
  withDest s d fun r => withSrc s a fun va => k r va

/-- Operand pattern S S. -/
def withSS (s : State) (a b : Src) (k : Word → Word → Result) : Result :=
  withSrc s a fun va => withSrc s b fun vb => k va vb

/-- Ends an instruction of `words` words that writes register `r` and transfers no control (R105). -/
def writeBack (s : State) (r : RegIdx) (v : Word) (words : Nat) : Result :=
  .next ((s.setReg r v).advance words)

end Sys2Proof.Machine
end

