-- ==== Sys2Proof/Machine/Alu.lean ====
section
/-!
DEFINITION. The ALU: `add`, `mult`, `mod`, `and`, `or`, `not` (45_alu.md). Arithmetic is exact on
naturals and narrowed at the end (R176); nothing records a carry (R26).
-/

namespace Sys2Proof.Machine

/-- `(a + b) mod 32768` (R170). -/
def aluAdd (a b : Word) : Word := BitVec.ofNat 15 ((a.toNat + b.toNat) % 32768)

/-- `(a * b) mod 32768` (R171). -/
def aluMult (a b : Word) : Word := BitVec.ofNat 15 ((a.toNat * b.toNat) % 32768)

/-- `a mod b` for `b ≠ 0` (R172); `execMod` never asks for it with `b = 0`. -/
def aluMod (a b : Word) : Word := BitVec.ofNat 15 (a.toNat % b.toNat)

/-- `a & b` (R173). -/
def aluAnd (a b : Word) : Word := a &&& b

/-- `a | b` (R174). -/
def aluOr (a b : Word) : Word := a ||| b

/-- `NOT15(a)` (R9, R175): all 15 bits complemented. -/
def aluNot (a : Word) : Word := ~~~a

/-- `add dest,a,b` (R170). -/
def execAdd (d : Dest) (a b : Src) (s : State) : Result :=
  withDSS s d a b fun r va vb => writeBack s r (aluAdd va vb) 4

/-- `mult dest,a,b` (R171). -/
def execMult (d : Dest) (a b : Src) (s : State) : Result :=
  withDSS s d a b fun r va vb => writeBack s r (aluMult va vb) 4

/-- `mod dest,a,b` (R172); a divisor of 0 raises `DIV_ZERO` (R177). -/
def execMod (d : Dest) (a b : Src) (s : State) : Result :=
  withDSS s d a b fun r va vb =>
    if vb.toNat = 0 then fault s .divZero 0 else writeBack s r (aluMod va vb) 4

/-- `and dest,a,b` (R173). -/
def execAnd (d : Dest) (a b : Src) (s : State) : Result :=
  withDSS s d a b fun r va vb => writeBack s r (aluAnd va vb) 4

/-- `or dest,a,b` (R174). -/
def execOr (d : Dest) (a b : Src) (s : State) : Result :=
  withDSS s d a b fun r va vb => writeBack s r (aluOr va vb) 4

/-- `not dest,a` (R175). -/
def execNot (d : Dest) (a : Src) (s : State) : Result :=
  withDS s d a fun r va => writeBack s r (aluNot va) 3

end Sys2Proof.Machine
end

