-- ==== Sys2Proof/Machine/CallReturn.lean ====
section
/-!
DEFINITION. Call and return: `call`, `ret` (47_call_return.md). The return address goes on the stack of
`push` and `pop`, with no tag (R27).
-/

namespace Sys2Proof.Machine

/-- `call a` (R200): the pushed entry is `next`, the address `A + 2`. -/
def execCall (a : Src) (s : State) : Result :=
  withSrc s a fun va => withPush s (s.next 2) fun t => .next (t.jump va)

/-- `ret` (R201): on an empty stack a graceful halt, with the pc left at `A`. -/
def execRet (s : State) : Result :=
  match s.stack with
  | [] => .next (s.haltWith .retEmpty)
  | top :: rest => .next { s with stack := rest, pc := top }

end Sys2Proof.Machine
end

