-- ==== Sys2Proof/Machine/CharIO.lean ====
section
/-!
DEFINITION. Character I/O: `out`, `in` (48_io.md). The completion of a waiting `in` is the host
operation Deliver, in HostPort.lean.
-/

namespace Sys2Proof.Machine

/-- `out a` (R210): the port never stalls (R215). -/
def execOut (a : Src) (s : State) : Result :=
  withSrc s a fun va => .next ((s.outWrite va).advance 2)

/-- The step of `in dest` (R212): latch the destination and wait; the pc stays at `A`. -/
def execInp (d : Dest) (s : State) : Result :=
  withDest s d fun r => .next { s with inDest := r, runState := .waitInput }

end Sys2Proof.Machine
end

