-- ==== Sys2Proof/Machine/Flags.lean ====
section
/-!
DEFINITION. There are no flags, condition codes or predicate registers (R26), and no instruction
records a carry or an overflow. What stands in their place is here: the 0 or 1 that `eq` and `gt`
write to a register, and the test that `jt` and `jf` make on an operand's value.
-/

namespace Sys2Proof.Machine

/-- The result of a comparison, exactly 0 or 1 (R150, R151). -/
def truth (p : Bool) : Word := if p then 1 else 0

/-- `eq`'s test (R150). -/
def testEq (a b : Word) : Bool := decide (a.toNat = b.toNat)

/-- `gt`'s test, unsigned (R151). -/
def testGt (a b : Word) : Bool := decide (a.toNat > b.toNat)

/-- A condition operand counts as true when it is not zero (R161, R162). -/
def condHolds (a : Word) : Bool := decide (a.toNat ≠ 0)

end Sys2Proof.Machine
end

