-- ==== Sys2Proof/Machine/Compare.lean ====
section
/-!
DEFINITION. Compare: `eq`, `gt` (43_compare.md).
-/

namespace Sys2Proof.Machine

/-- `eq dest,a,b` (R150). -/
def execEq (d : Dest) (a b : Src) (s : State) : Result :=
  withDSS s d a b fun r va vb => writeBack s r (truth (testEq va vb)) 4

/-- `gt dest,a,b` (R151). -/
def execGt (d : Dest) (a b : Src) (s : State) : Result :=
  withDSS s d a b fun r va vb => writeBack s r (truth (testGt va vb)) 4

end Sys2Proof.Machine
end

