-- ==== Sys2Proof/Machine/Control.lean ====
section
/-!
DEFINITION. Machine control: `halt`, `noop` (41_machine_control.md).
-/

namespace Sys2Proof.Machine

/-- `halt` (R130). -/
def execHalt (s : State) : Result := .next (s.haltWith .haltInstr)

/-- `noop` (R131). -/
def execNoop (s : State) : Result := .next (s.advance 1)

end Sys2Proof.Machine
end

