-- ==== Sys2Proof/Machine/Jump.lean ====
section
/-!
DEFINITION. Jumps: `jmp`, `jt`, `jf` (44_jump.md). A target is an absolute word address.
-/

namespace Sys2Proof.Machine

/-- `jmp a` (R160). -/
def execJmp (a : Src) (s : State) : Result :=
  withSrc s a fun va => .next (s.jump va)

/-- `jt a,b` (R161): jump if `a` is not zero. -/
def execJt (a b : Src) (s : State) : Result :=
  withSS s a b fun va vb => .next (if condHolds va then s.jump vb else s.advance 3)

/-- `jf a,b` (R162): jump if `a` is zero. -/
def execJf (a b : Src) (s : State) : Result :=
  withSS s a b fun va vb => .next (if condHolds va then s.advance 3 else s.jump vb)

end Sys2Proof.Machine
end

