-- ==== Sys2Proof/Machine/MemAccess.lean ====
section
/-!
DEFINITION. Memory access: `rmem`, `wmem` (46_memory_access.md). The address is a resolved value, so it
is always inside memory (R55).
-/

namespace Sys2Proof.Machine

/-- `rmem dest,a` (R190). -/
def execRmem (d : Dest) (a : Src) (s : State) : Result :=
  withDS s d a fun r va => withWord s (s.mem.read va.toNat) fun v => writeBack s r v 3

/-- `wmem a,b` (R191): the cell's bit 15 becomes 0. -/
def execWmem (a b : Src) (s : State) : Result :=
  withSS s a b fun va vb => .next ((s.writeCell va (zext16 vb)).advance 3)

end Sys2Proof.Machine
end

