-- ==== Sys2Proof/Machine/Moves.lean ====
section
/-!
DEFINITION. Register and stack moves: `set`, `push`, `pop` (42_register_stack.md).
-/

namespace Sys2Proof.Machine

/-- `set dest,a` (R140). -/
def execSet (d : Dest) (a : Src) (s : State) : Result :=
  withDS s d a fun r va => writeBack s r va 3

/-- `push a` (R141). -/
def execPush (a : Src) (s : State) : Result :=
  withSrc s a fun va => withPush s (zext16 va) fun t => .next (t.advance 2)

/-- `pop dest` (R142): both faults come before the entry is removed. -/
def execPop (d : Dest) (s : State) : Result :=
  withDest s d fun r =>
    match s.stack with
    | [] => fault s .stackEmpty 0
    | top :: rest => withWord s top fun v => writeBack { s with stack := rest } r v 2

end Sys2Proof.Machine
end

