-- ==== Sys2Proof/Machine/HostPort.lean ====
section
/-!
DEFINITION. The host operations of R250 (Deliver, Snapshot, Restore, WriteReg7, ReadStatus), the
loader (R271), and the host's turn: what happens when the core itself has no step (R100).
-/

namespace Sys2Proof.Machine

/-- The code of `STATUS.state` (R29). -/
def RunState.code : RunState → Nat
  | .running => 0
  | .waitInput => 1
  | .halted => 2
  | .faulted => 3

/-- The code of a halt reason (R29). -/
def HaltReason.code : HaltReason → Nat
  | .haltInstr => 1
  | .retEmpty => 2

/-- The code of a fault cause (R31). -/
def FaultCause.code : FaultCause → Nat
  | .unknownOpcode => 1
  | .stackEmpty => 2
  | .badOperand => 3
  | .badDest => 4
  | .divZero => 5
  | .fetchRange => 6
  | .wideValue => 7
  | .stackOverflow => 8

/-- The register `STATUS` as the host reads it (R29): bits 15..8 are 0, bits 7..4 the fault cause,
bits 3..2 the halt reason, bits 1..0 the state. -/
def State.statusWord (s : State) : Cell :=
  BitVec.ofNat 16
    ((s.faultCause.elim 0 FaultCause.code) * 16 + (s.haltReason.elim 0 HaltReason.code) * 4
      + s.runState.code)

/-- `ReadStatus()` (R256): at any time, changing nothing. -/
def State.readStatus (s : State) : StatusReport where
  status := s.statusWord
  faultPc := s.faultPc
  faultInfo := s.faultInfo

/-- `Deliver(c)` (R213): completes the waiting `in`, or raises `WIDE_VALUE`. -/
def State.deliver (s : State) (c : Nat) : State :=
  if Config.inCharMax < c then s.raiseFault .wideValue (BitVec.ofNat 16 (c % 65536))
  else { (s.setReg s.inDest (BitVec.ofNat 15 c)).advance 2 with runState := .running }

/-- `Snapshot()` (R252): pc, x, stack from bottom to top, all 32768 cells. -/
def State.snapshot (s : State) : Snapshot where
  pc := s.pc.toNat
  x := s.x.toList.map BitVec.toNat
  stack := (s.stack.map BitVec.toNat).reverse
  mem := s.mem.toCells.map BitVec.toNat

/-- `Valid(s)` (R253). -/
def Snapshot.valid (p : Snapshot) (cap : StackCapacity) : Bool :=
  decide (p.pc ≤ 32768)
    && decide (p.x.length = 8) && p.x.all (fun v => decide (v ≤ 32767))
    && p.stack.all (fun v => decide (v ≤ 32768)) && StackCapacity.fits cap p.stack.length
    && decide (p.mem.length = 32768) && p.mem.all (fun v => decide (v ≤ 65535))

/-- The writes of a successful `Restore(s)` (R253): four fields at once, and the waiting `in` is
abandoned (log entry 14). -/
def State.restoreFrom (s : State) (p : Snapshot) : State :=
  { s with
    pc := BitVec.ofNat 16 p.pc
    x := Vector.ofFn fun r : Fin 8 => BitVec.ofNat 15 (p.x.getD r.val 0)
    stack := (p.stack.map (BitVec.ofNat 16)).reverse
    mem := Memory.ofCells 0 (p.mem.map (BitVec.ofNat 16))
    runState := .running }

/-- `Restore(s)` accepts this snapshot: it is there and it is valid (R253). -/
def restoreAccepts (p : Option Snapshot) (cap : StackCapacity) : Option Snapshot :=
  match p with
  | none => none
  | some q => if q.valid cap then some q else none

/-- `WriteReg7(v)` accepts this value: an integer in 0..32767 (R254). -/
def reg7Accepts (v : Option Int) : Option Int :=
  match v with
  | none => none
  | some n => if 0 ≤ n ∧ n ≤ 32767 then some n else none

/-- `x[7] <- v` for an accepted value (R254). -/
def State.writeReg7 (s : State) (v : Int) : State := s.setReg 7 (BitVec.ofNat 15 v.toNat)

/-- Records what a host operation reports. -/
def State.reply (s : State) (r : HostReply) : State := { s with replies := s.replies ++ [r] }

/-- The column "enabled when" of R250 (R236: in a final state only the status read is). -/
def HostOp.enabled : HostOp → RunState → Bool
  | .readStatus, _ => true
  | .deliver _, st | .snapshot, st | .restore _, st | .writeReg7 _, st => decide (st = .waitInput)

/-- An enabled host operation and what it reports. A refused restore or register-7 write changes
nothing but the report (R253, R254). -/
def performOp (s : State) : HostOp → State
  | .deliver c => s.deliver c
  | .snapshot => s.reply (.snapshotTaken s.snapshot)
  | .restore p =>
    match restoreAccepts p s.stackCapacity with
    | some q => (s.restoreFrom q).reply .restored
    | none => s.reply .persistenceError
  | .writeReg7 v =>
    match reg7Accepts v with
    | some n => (s.writeReg7 n).reply .reg7Written
    | none => s.reply .reg7Refused
  | .readStatus => s.reply (.status s.readStatus)

/-- Why the core has no step, named by the state it is in. In RUNNING it always has one. -/
def stuck : RunState → Fault
  | .running | .waitInput => .awaitingHost
  | .halted => .halted
  | .faulted => .faulted

/-- The host's turn: the next queued operation, where it is enabled; else there is no next state
(R100, R236, R237). -/
def hostTurn (s : State) : Result :=
  match s.hostOps with
  | [] => .fault (stuck s.runState)
  | op :: rest =>
    if op.enabled s.runState then .next (performOp { s with hostOps := rest } op)
    else .fault (stuck s.runState)

/-- Why a load fails; the core then never starts (R271). -/
inductive LoadError where
  | missing
  | oddLength
  | tooLong
deriving DecidableEq, Repr

/-- One cell from two bytes of the image, little-endian (R51). -/
def cellOfBytes (lo hi : Byte) : Cell := lo.setWidth 16 ||| (hi.setWidth 16 <<< 8)

/-- The cells of an image: cell k from bytes 2k and 2k+1 (R51). -/
def cellsOfBytes : List Byte → List Cell
  | lo :: hi :: bs => cellOfBytes lo hi :: cellsOfBytes bs
  | _ => []

/-- `Load(image)` (R271) and the reset state it leads to (R270, R272): `none` is an image that is
missing or unreadable. -/
def loadImage (cap : StackCapacity) : Option (List Byte) → Except LoadError State
  | none => .error .missing
  | some bs =>
    if bs.length % 2 ≠ 0 then .error .oddLength
    else if 65536 < bs.length then .error .tooLong
    else .ok { State.reset with mem := Memory.ofCells 0 (cellsOfBytes bs), stackCapacity := cap }

end Sys2Proof.Machine
end

