-- ==== Sys2Proof/Machine/Engine.lean ====
section
/-!
DEFINITION. The fetch-decode-execute step of the core (R102), taken only in RUNNING (R100).
-/

namespace Sys2Proof.Machine

/-- The words the fetch can read at the pc, opcode first: at most the longest instruction's, and none
at or beyond the end of memory (R101, R102; log entry 11). -/
def State.fetched (s : State) : List Cell :=
  s.mem.fetchCells Config.maxInstrWords s.pc.toNat

/-- One step of the core. A word that is missing raises `FETCH_RANGE` with the first address that
fails (R101), an unknown opcode raises `UNKNOWN_OPCODE` (R72), in the order of R103; the operand
faults are raised in `exec`. -/
def coreStep (s : State) : Result :=
  match decode s.fetched with
  | .ok (i, _) => exec i s
  | .error (.unknownOpcode w) => fault s .unknownOpcode w
  | .error (.truncated present) => fault s .fetchRange (s.next present)

end Sys2Proof.Machine
end

