-- ==== Sys2Proof/Machine/Step.lean ====
section
/-!
DEFINITION. One transition of the machine: the core's step in RUNNING, else the host's turn (R100,
R250), and the host program's way to place one instruction where the next step fetches it.
-/

namespace Sys2Proof.Machine

def step (s : State) : Host.Outcome State Fault Refusal :=
  match s.runState with
  | .running => Sys2Proof.Machine.coreStep s
  | .waitInput => Sys2Proof.Machine.hostTurn s
  | .halted => Sys2Proof.Machine.hostTurn s
  | .faulted => Sys2Proof.Machine.hostTurn s

/-- `s` with the instruction whose bits are `w` in the cells from the pc on, and RUNNING, so that the
next step fetches and runs it (log entry 3). -/
def State.withFetchWord (s : State) (nbits w : Nat) : State :=
  s.placeWords (Sys2Proof.tableCells nbits w)

end Sys2Proof.Machine
end

