-- ==== Sys2Proof/Machine/Listing.lean ====
section
/-!
DEFINITION. The disassembler's listing (R90): the linear pass over the memory image as loaded, all of
its 32768 cells. It never executes and no other definition uses it (log entry 17).
-/

namespace Sys2Proof.Machine

/-- One line of the listing. -/
inductive ListLine where
  /-- `<a>: <mnemonic> <raw operand words>`. -/
  | instr (a : Nat) (mnemonic : String) (operands : List Cell)
  /-- `<a>: >> <word>`. -/
  | data (a : Nat) (w : Cell)
deriving DecidableEq, Repr

/-- The cells at `n` addresses from `a` on. -/
def Memory.cellsFrom (m : Memory) (a n : Nat) : List Cell := (List.range' a n).map m.read

/-- The cells from `a` to the end of memory as `>>` lines, one per cell. -/
def dataLines (m : Memory) (a : Nat) : List ListLine :=
  (List.range' a (Config.memWords - a)).map fun b => .data b (m.read b)

/-- The pass from address `a` to the end of memory, at most `fuel` lines and the `>>` lines of the
end. An instruction whose operand words would pass address 32767 is printed as `>>` lines, one per
remaining word. -/
def listFrom (m : Memory) : Nat → Nat → List ListLine
  | 0, _ => []
  | fuel + 1, a =>
    if Config.memWords ≤ a then []
    else
      match opTable[(m.read a).toNat]? with
      | none => .data a (m.read a) :: listFrom m fuel (a + 1)
      | some row =>
        if Config.memWords < a + 1 + row.roles.length then dataLines m a
        else
          .instr a row.mnemonic (m.cellsFrom (a + 1) row.roles.length)
            :: listFrom m fuel (a + 1 + row.roles.length)

/-- The listing of a memory: the pass from address 0 over all its cells. -/
def listing (m : Memory) : List ListLine := listFrom m Config.memWords 0

/-- The listing of an image, as it is loaded (R271). -/
def imageListing (image : Option (List Byte)) : Except LoadError (List ListLine) :=
  (loadImage .unbounded image).map fun s => listing s.mem

/-- A line as text: decimal numbers, single spaces (R90). -/
def ListLine.render : ListLine → String
  | .instr a m ops => ops.foldl (fun t w => t ++ " " ++ toString w.toNat) (toString a ++ ": " ++ m)
  | .data a w => toString a ++ ": >> " ++ toString w.toNat

/-- The addresses a line covers. -/
def ListLine.covers : ListLine → List Nat
  | .instr a _ ops => List.range' a (1 + ops.length)
  | .data a _ => [a]

end Sys2Proof.Machine
end

