-- ==== Sys2Proof/Safety.lean ====
section
/-!
DEFINITION. What counts as the end of a run (R237), the invariant of the machine, and the words in
which the statements say what an instruction leaves unchanged.
-/

namespace Sys2Proof.Machine

/-- The state an outcome leads to, where there is one. -/
def nextState : Result → Option State
  | .next t => some t
  | .fault _ => none
  | .refused _ => none

/-- A good end of a run (R237). -/
abbrev State.GoodEnd (s : State) : Prop := s.runState = .halted

/-- An error end of a run (R237). -/
abbrev State.ErrorEnd (s : State) : Prop := s.runState = .faulted

/-- The run has ended (R237). -/
abbrev State.Ended (s : State) : Prop := s.GoodEnd ∨ s.ErrorEnd

/-- The core waits and the host never acts again: stuck, not ended (R237). -/
abbrev State.Stuck (s : State) : Prop := s.runState = .waitInput ∧ s.hostOps = []

/-- The pc holds a value in 0..32768 (R24). -/
abbrev State.PcInRange (s : State) : Prop := s.pc.toNat ≤ 32768

/-- Every stack entry holds a value in 0..32768 (R27). -/
abbrev State.StackInRange (s : State) : Prop := ∀ c ∈ s.stack, c.toNat ≤ 32768

/-- The depth is at most `STACK_CAPACITY` (R27). -/
abbrev State.StackFits (s : State) : Prop :=
  StackCapacity.fits s.stackCapacity s.stack.length = true

/-- Memory is 32768 cells, held in its canonical form (R28, log entry 1). -/
abbrev State.MemWf (s : State) : Prop := Memory.wf s.mem = true

/-- In WAIT_INPUT the pc is the address of an `in` whose destination is the latched one (R212, R252). -/
abbrev State.WaitsAtIn (s : State) : Prop :=
  s.runState = .waitInput →
    s.pc.toNat ≤ 32766 ∧ s.mem.read s.pc.toNat = 20
      ∧ s.mem.read (s.pc.toNat + 1) = regCell s.inDest

/-- The halt reason is set in HALTED alone, and the fault fields in FAULTED alone (R29, R231, R232). -/
abbrev State.StatusCoherent (s : State) : Prop :=
  (s.haltReason ≠ none ↔ s.runState = .halted) ∧ (s.faultCause ≠ none ↔ s.runState = .faulted)
    ∧ (s.runState ≠ .faulted → s.faultPc = 0 ∧ s.faultInfo = 0)

/-- The invariant of the machine. -/
abbrev State.Inv (s : State) : Prop :=
  s.PcInRange ∧ s.StackInRange ∧ s.StackFits ∧ s.MemWf ∧ s.WaitsAtIn ∧ s.StatusCoherent

/-- No status register changed: `STATUS`, `FAULT_PC`, `FAULT_INFO` (R29). -/
def StatusKept (s t : State) : Prop :=
  t.runState = s.runState ∧ t.haltReason = s.haltReason ∧ t.faultCause = s.faultCause
    ∧ t.faultPc = s.faultPc ∧ t.faultInfo = s.faultInfo

/-- Neither the latch `in_dest`, nor the parameter, nor the host's side but the output changed. -/
def LatchAndHostKept (s t : State) : Prop :=
  t.inDest = s.inDest ∧ t.stackCapacity = s.stackCapacity ∧ t.hostOps = s.hostOps
    ∧ t.replies = s.replies

/-- No register changed. -/
def RegsKept (s t : State) : Prop := ∀ r, t.reg r = s.reg r

/-- No register but `d` changed. -/
def RegsKeptBut (d : RegIdx) (s t : State) : Prop := ∀ r, r ≠ d → t.reg r = s.reg r

/-- No cell of memory changed: every address reads as before. -/
def MemKept (s t : State) : Prop := ∀ a, t.mem.read a = s.mem.read a

/-- No cell but the one at `b` changed: every other address reads as before. -/
def MemKeptBut (b : Nat) (s t : State) : Prop := ∀ a, a ≠ b → t.mem.read a = s.mem.read a

/-- What an instruction that writes register `d` and transfers no control leaves unchanged. -/
def FrameOfRegWrite (d : RegIdx) (s t : State) : Prop :=
  RegsKeptBut d s t ∧ t.stack = s.stack ∧ MemKept s t ∧ StatusKept s t ∧ LatchAndHostKept s t
    ∧ t.output = s.output

/-- What an instruction that changes no more than the pc leaves unchanged. -/
def FrameOfPcWrite (s t : State) : Prop :=
  RegsKept s t ∧ t.stack = s.stack ∧ MemKept s t ∧ StatusKept s t ∧ LatchAndHostKept s t
    ∧ t.output = s.output

/-- What an instruction that changes no more than the stack and the pc leaves unchanged. -/
def FrameOfStackWrite (s t : State) : Prop :=
  RegsKept s t ∧ MemKept s t ∧ StatusKept s t ∧ LatchAndHostKept s t ∧ t.output = s.output

/-- The illegal operand words of an instruction with the fault each raises, left to right; in every
row of the table the D position comes first. -/
def illegalOperands (i : Instr) : List (FaultCause × Cell) :=
  (i.dests.filterMap fun d => match d with
    | .reg _ => none
    | .notReg w => some (.badDest, w))
  ++ i.srcs.filterMap fun a => match a with
    | .lit _ => none
    | .reg _ => none
    | .undef w => some (.badOperand, w)

/-- `t` is `s` with the fault raised: `STATUS`, `FAULT_PC` and `FAULT_INFO` written, all else kept
(R232, R106). `pc = A` in it (R107). -/
def FaultTaken (cause : FaultCause) (info : Nat) (s t : State) : Prop :=
  t.runState = .faulted ∧ t.faultCause = some cause ∧ t.faultPc = s.pc ∧ t.faultInfo.toNat = info
    ∧ t.pc = s.pc ∧ RegsKept s t ∧ t.stack = s.stack ∧ MemKept s t ∧ t.haltReason = s.haltReason
    ∧ LatchAndHostKept s t ∧ t.output = s.output

/-- `t` is `s` halted: `STATUS.state` and `STATUS.halt_reason` written, all else kept (R231). -/
def HaltTaken (reason : HaltReason) (s t : State) : Prop :=
  t.runState = .halted ∧ t.haltReason = some reason ∧ t.faultCause = s.faultCause
    ∧ t.faultPc = s.faultPc ∧ t.faultInfo = s.faultInfo ∧ t.pc = s.pc ∧ RegsKept s t
    ∧ t.stack = s.stack ∧ MemKept s t ∧ LatchAndHostKept s t ∧ t.output = s.output

/-- `i` transfers no control in `s`: R105's list, but for the completed `in`, which is a host
operation's effect (R213). -/
def TransfersNoControl (i : Instr) (s : State) : Prop :=
  match i with
  | .set _ _ | .push _ | .pop _ | .eq _ _ _ | .gt _ _ _ | .add _ _ _ | .mult _ _ _ | .mod _ _ _
  | .and _ _ _ | .or _ _ _ | .not _ _ | .rmem _ _ | .wmem _ _ | .out _ | .noop => True
  | .jt a _ => ∃ v, s.resolve a = .ok v ∧ v.toNat = 0
  | .jf a _ => ∃ v, s.resolve a = .ok v ∧ v.toNat ≠ 0
  | .halt | .jmp _ | .call _ | .ret | .inp _ => False

/-- `i` goes to the target its operand `a` names in `s`: `jmp`, `call`, and a taken `jt` or `jf`. -/
def TakesTarget (i : Instr) (s : State) (a : Src) : Prop :=
  i = .jmp a ∨ i = .call a ∨ (∃ c v, i = .jt c a ∧ s.resolve c = .ok v ∧ v.toNat ≠ 0)
    ∨ ∃ c v, i = .jf c a ∧ s.resolve c = .ok v ∧ v.toNat = 0

/-- The four outcomes that leave the pc at the instruction (R107). -/
def LeavesPc (i : Instr) (s t : State) : Prop :=
  (∃ cause info, FaultTaken cause info s t) ∨ i = .halt ∨ (i = .ret ∧ s.stack = [])
    ∨ ∃ r, i = .inp (.reg r)

/-- The ways in which an instruction moves the pc, each for its own instructions (R25, R105, R107). -/
def PcMovesAsListed (i : Instr) (s t : State) : Prop :=
  (LeavesPc i s t ∧ t.pc = s.pc)
    ∨ (TransfersNoControl i s ∧ t.pc = s.pc + BitVec.ofNat 16 (1 + i.arity))
    ∨ (∃ a v, TakesTarget i s a ∧ s.resolve a = .ok v ∧ t.pc.toNat = v.toNat)
    ∨ (i = .ret ∧ ∃ rest, s.stack = t.pc :: rest)

/-- `Valid(s)` in the numbers of R253. -/
def SnapshotInRange (p : Snapshot) (cap : StackCapacity) : Prop :=
  p.pc ≤ 32768 ∧ (p.x.length = 8 ∧ ∀ v ∈ p.x, v ≤ 32767)
    ∧ (∀ v ∈ p.stack, v ≤ 32768) ∧ (∀ n, StackCapacity.limit cap = some n → p.stack.length ≤ n)
    ∧ p.mem.length = 32768 ∧ ∀ v ∈ p.mem, v ≤ 65535

end Sys2Proof.Machine
end

