-- ==== Sys2Proof/Certificates/Slice0/Obligations.lean ====
section
/-!
DEFINITION. The statements about the model, for the provers. Each is one entry of OBLIGATIONS.json,
which names the rules it formalises. `exec i s = .next t` as a conclusion says that the instruction
completes.
-/

open Sys2Proof Sys2Proof.Machine

/-! ## Encoding -/

/-- Decoding the words of an encodable instruction gives the instruction back, for all 22 constructors
and every operand word, and leaves the cells after it. -/
def Obligations.DecodeOfEncode : Prop :=
  ∀ (i : Instr) (rest : List Cell), i.Encodable → decode (encode i ++ rest) = .ok (i, rest)

/-- Whatever the decoder accepts is, word for word, the encoding of the instruction it answers, which
is an encodable one. -/
def Obligations.EncodeOfDecode : Prop :=
  ∀ (ws rest : List Cell) (i : Instr), decode ws = .ok (i, rest) →
    ws = encode i ++ rest ∧ i.Encodable

/-- For each of the 22 rows of the opcode table, words written out from the encoding line of its rule
decode to the row's instruction; so does a row with illegal operand words. -/
def Obligations.SampleWordsDecode : Prop :=
  decode [0] = .ok (.halt, [])
    ∧ decode [1, 32768, 42] = .ok (.set (.reg 0) (.lit 42), [])
    ∧ decode [2, 32769] = .ok (.push (.reg 1), [])
    ∧ decode [3, 32770] = .ok (.pop (.reg 2), [])
    ∧ decode [4, 32768, 32769, 5] = .ok (.eq (.reg 0) (.reg 1) (.lit 5), [])
    ∧ decode [5, 32771, 10, 3] = .ok (.gt (.reg 3) (.lit 10) (.lit 3), [])
    ∧ decode [6, 100] = .ok (.jmp (.lit 100), [])
    ∧ decode [7, 32768, 3] = .ok (.jt (.reg 0) (.lit 3), [])
    ∧ decode [8, 0, 40] = .ok (.jf (.lit 0) (.lit 40), [])
    ∧ decode [9, 32768, 4, 5] = .ok (.add (.reg 0) (.lit 4) (.lit 5), [])
    ∧ decode [10, 32768, 300, 200] = .ok (.mult (.reg 0) (.lit 300) (.lit 200), [])
    ∧ decode [11, 32772, 32767, 1000] = .ok (.mod (.reg 4) (.lit 32767) (.lit 1000), [])
    ∧ decode [12, 32770, 12, 10] = .ok (.and (.reg 2) (.lit 12) (.lit 10), [])
    ∧ decode [13, 32771, 12, 10] = .ok (.or (.reg 3) (.lit 12) (.lit 10), [])
    ∧ decode [14, 32769, 32768] = .ok (.not (.reg 1) (.reg 0), [])
    ∧ decode [15, 32770, 10] = .ok (.rmem (.reg 2) (.lit 10), [])
    ∧ decode [16, 10, 19] = .ok (.wmem (.lit 10) (.lit 19), [])
    ∧ decode [17, 8] = .ok (.call (.lit 8), [])
    ∧ decode [18] = .ok (.ret, [])
    ∧ decode [19, 32768] = .ok (.out (.reg 0), [])
    ∧ decode [20, 32775] = .ok (.inp (.reg 7), [])
    ∧ decode [21, 9] = .ok (.noop, [9])
    ∧ decode [1, 32776, 40000] = .ok (.set (.notReg 32776) (.undef 40000), [])

/-- The opcode word alone: 0..21 select an instruction, whatever operand words follow; every other
value is rejected, and a step that fetches it raises `UNKNOWN_OPCODE` with that word. -/
def Obligations.OpcodeWordSelects : Prop :=
  (∀ (op : Cell) (ws : List Cell), op.toNat ≤ 21 → 3 ≤ ws.length →
      ∃ i rest, decode (op :: ws) = .ok (i, rest))
    ∧ (∀ (op : Cell) (ws : List Cell), 21 < op.toNat →
        decode (op :: ws) = .error (.unknownOpcode op))
    ∧ ∀ s : State, s.runState = .running → s.pc.toNat ≤ 32767 →
        21 < (s.mem.read s.pc.toNat).toNat →
        ∃ t, step s = .next t
          ∧ FaultTaken .unknownOpcode (s.mem.read s.pc.toNat).toNat s t

/-- The length of an instruction is 1 plus the arity that its first word alone selects in the table. -/
def Obligations.LengthFromFirstWord : Prop :=
  ∀ (op : Cell) (ws rest : List Cell) (i : Instr), decode (op :: ws) = .ok (i, rest) →
    arityOf op = some i.arity ∧ (op :: ws).length = 1 + i.arity + rest.length

/-- `Resolve(w)` in its three cases. -/
def Obligations.ResolveByRange : Prop :=
  ∀ (s : State) (w : Cell),
    (w.toNat ≤ 32767 → ∃ v, s.resolve (.ofCell w) = .ok v ∧ v.toNat = w.toNat)
      ∧ (∀ r : RegIdx, w.toNat = 32768 + r.val → s.resolve (.ofCell w) = .ok (s.reg r))
      ∧ (32776 ≤ w.toNat → ∀ k, ∃ t, withSrc s (.ofCell w) k = .next t
          ∧ FaultTaken .badOperand w.toNat s t)

/-- `DestIdx(w)` in its two cases. -/
def Obligations.DestIdxByRange : Prop :=
  ∀ (s : State) (w : Cell) (k : RegIdx → Result),
    (∀ r : RegIdx, w.toNat = 32768 + r.val → withDest s (.ofCell w) k = k r)
      ∧ (w.toNat ≤ 32767 ∨ 32776 ≤ w.toNat → ∃ t, withDest s (.ofCell w) k = .next t
          ∧ FaultTaken .badDest w.toNat s t)

/-! ## The step -/

/-- When the cells at the pc decode to an instruction, the step is `exec` of it and nothing around
it: `exec` itself moves the pc. -/
def Obligations.StepRunsDecoded : Prop :=
  ∀ (s : State) (i : Instr) (rest : List Cell), s.runState = .running →
    decode s.fetched = .ok (i, rest) → step s = exec i s

/-- When memory holds the words of an instruction from the pc on, all of them inside memory, the step
is `exec` of that instruction. -/
def Obligations.StepRunsWordsInMemory : Prop :=
  ∀ (s : State) (i : Instr), s.runState = .running → i.Encodable →
    s.pc.toNat + (encode i).length ≤ 32768 →
    (∀ k, k < (encode i).length → (encode i)[k]? = some (s.mem.read (s.pc.toNat + k))) →
    step s = exec i s

/-- A fetch at or beyond 32768 raises `FETCH_RANGE` with the first address that fails: the opcode
word's, or else the first operand word's, once the opcode is known. -/
def Obligations.FetchBeyondMemoryFaults : Prop :=
  ∀ s : State, s.runState = .running →
    (32768 ≤ s.pc.toNat → ∃ t, step s = .next t ∧ FaultTaken .fetchRange s.pc.toNat s t)
      ∧ ∀ n, s.pc.toNat < 32768 → arityOf (s.mem.read s.pc.toNat) = some n →
          32768 ≤ s.pc.toNat + n → ∃ t, step s = .next t ∧ FaultTaken .fetchRange 32768 s t

/-- An instruction with illegal operand words raises the fault of the leftmost one, before any
execution fault, in every state. -/
def Obligations.LeftmostOperandFaultWins : Prop :=
  ∀ (i : Instr) (s : State) (c : FaultCause) (w : Cell) (more : List (FaultCause × Cell)),
    illegalOperands i = (c, w) :: more →
    ∃ t, exec i s = .next t ∧ FaultTaken c w.toNat s t

/-- Faults are precise: a step that ends FAULTED has written `STATUS`, `FAULT_PC` and `FAULT_INFO`,
and nothing else. -/
def Obligations.FaultsArePrecise : Prop :=
  ∀ s t : State, s.runState = .running → step s = .next t → t.runState = .faulted →
    ∃ c info, FaultTaken c info s t

/-- No instruction is refused and none stops the model: every instruction answers a next state in
every state, and so does every step in RUNNING. That a fault is answered as a next state is the model's
choice (log entry 7), and so is that `exec` answers also in states in which R100 gives no step (log
entry 20). -/
def Obligations.EveryInstructionAnswers : Prop :=
  (∀ (i : Instr) (s : State), ∃ t, exec i s = .next t)
    ∧ ∀ s : State, s.runState = .running → ∃ t, step s = .next t

/-- Outside RUNNING the core has no step. In HALTED and FAULTED only a status read that the host has
queued is performed, and it changes nothing of the core; in WAIT_INPUT nothing happens without a host
operation. (The queue is the model's: log entry 5.) -/
def Obligations.NoStepOutsideRunning : Prop :=
  (∀ s : State, s.Ended → ∀ t, step s = .next t →
      ∃ rest, s.hostOps = .readStatus :: rest
        ∧ t = { s with hostOps := rest, replies := s.replies ++ [.status s.readStatus] })
    ∧ (∀ s : State, s.Ended → ∀ rest, s.hostOps = .readStatus :: rest → ∃ t, step s = .next t)
    ∧ ∀ s : State, s.Stuck → step s = .fault .awaitingHost

/-! ## What each instruction does, what it leaves unchanged, and that it completes -/

/-- `halt`. -/
def Obligations.HaltEndsRun : Prop :=
  ∀ s : State, ∃ t, exec .halt s = .next t ∧ HaltTaken .haltInstr s t

/-- `noop`. -/
def Obligations.NoopOnlyAdvances : Prop :=
  ∀ s : State, ∃ t, exec .noop s = .next t ∧ t.pc = s.pc + 1 ∧ FrameOfPcWrite s t

/-- `set dest,a`. -/
def Obligations.SetCopiesValue : Prop :=
  ∀ (s : State) (r : RegIdx) (a : Src) (va : Word), s.resolve a = .ok va →
    ∃ t, exec (.set (.reg r) a) s = .next t ∧ t.reg r = va ∧ t.pc = s.pc + 3
      ∧ FrameOfRegWrite r s t

/-- `push a`: the value goes on top, unless the stack has `STACK_CAPACITY` entries already. -/
def Obligations.PushGoesOnTop : Prop :=
  ∀ (s : State) (a : Src) (va : Word), s.resolve a = .ok va →
    (StackCapacity.limit s.stackCapacity ≠ some s.stack.length →
        ∃ t top, exec (.push a) s = .next t ∧ t.stack = top :: s.stack ∧ top.toNat = va.toNat
          ∧ t.pc = s.pc + 2 ∧ FrameOfStackWrite s t)
      ∧ (StackCapacity.limit s.stackCapacity = some s.stack.length →
        ∃ t, exec (.push a) s = .next t ∧ FaultTaken .stackOverflow 0 s t)

/-- `pop dest`: the two faults leave the stack as it is; else the top entry goes to the register. -/
def Obligations.PopTakesTop : Prop :=
  ∀ (s : State) (r : RegIdx),
    (s.stack = [] → ∃ t, exec (.pop (.reg r)) s = .next t ∧ FaultTaken .stackEmpty 0 s t)
      ∧ ∀ (top : Cell) (rest : List Cell), s.stack = top :: rest →
        (32767 < top.toNat →
            ∃ t, exec (.pop (.reg r)) s = .next t ∧ FaultTaken .wideValue top.toNat s t)
          ∧ (top.toNat ≤ 32767 →
            ∃ t, exec (.pop (.reg r)) s = .next t ∧ (t.reg r).toNat = top.toNat
              ∧ t.stack = rest ∧ t.pc = s.pc + 2 ∧ RegsKeptBut r s t ∧ MemKept s t
              ∧ StatusKept s t ∧ LatchAndHostKept s t ∧ t.output = s.output)

/-- The LIFO law: `push a` and then `pop dest` put the value of `a` in the register and leave the
stack as it was. -/
def Obligations.PushThenPop : Prop :=
  ∀ (s : State) (r : RegIdx) (a : Src) (va : Word), s.resolve a = .ok va → s.stackFull = false →
    ∃ t u, exec (.push a) s = .next t ∧ exec (.pop (.reg r)) t = .next u
      ∧ u.stack = s.stack ∧ u.reg r = va ∧ u.pc = s.pc + 4 ∧ RegsKeptBut r s u ∧ MemKept s u

/-- `eq dest,a,b`. -/
def Obligations.EqWritesZeroOrOne : Prop :=
  ∀ (s : State) (r : RegIdx) (a b : Src) (va vb : Word), s.resolve a = .ok va →
    s.resolve b = .ok vb →
    ∃ t, exec (.eq (.reg r) a b) s = .next t
      ∧ (t.reg r).toNat = (if va = vb then 1 else 0) ∧ t.pc = s.pc + 4 ∧ FrameOfRegWrite r s t

/-- `gt dest,a,b`. -/
def Obligations.GtWritesZeroOrOne : Prop :=
  ∀ (s : State) (r : RegIdx) (a b : Src) (va vb : Word), s.resolve a = .ok va →
    s.resolve b = .ok vb →
    ∃ t, exec (.gt (.reg r) a b) s = .next t
      ∧ (t.reg r).toNat = (if vb.toNat < va.toNat then 1 else 0) ∧ t.pc = s.pc + 4
      ∧ FrameOfRegWrite r s t

/-- `jmp a`. -/
def Obligations.JmpGoesToTarget : Prop :=
  ∀ (s : State) (a : Src) (va : Word), s.resolve a = .ok va →
    ∃ t, exec (.jmp a) s = .next t ∧ t.pc.toNat = va.toNat ∧ FrameOfPcWrite s t

/-- `jt a,b` jumps when `a` is not zero, and `jf a,b` when it is. -/
def Obligations.ConditionalJumps : Prop :=
  ∀ (s : State) (a b : Src) (va vb : Word), s.resolve a = .ok va → s.resolve b = .ok vb →
    (∃ t, exec (.jt a b) s = .next t ∧ FrameOfPcWrite s t
        ∧ (va.toNat ≠ 0 → t.pc.toNat = vb.toNat) ∧ (va.toNat = 0 → t.pc = s.pc + 3))
      ∧ ∃ t, exec (.jf a b) s = .next t ∧ FrameOfPcWrite s t
        ∧ (va.toNat = 0 → t.pc.toNat = vb.toNat) ∧ (va.toNat ≠ 0 → t.pc = s.pc + 3)

/-- `add dest,a,b`. -/
def Obligations.AddWraps : Prop :=
  ∀ (s : State) (r : RegIdx) (a b : Src) (va vb : Word), s.resolve a = .ok va →
    s.resolve b = .ok vb →
    ∃ t, exec (.add (.reg r) a b) s = .next t
      ∧ (t.reg r).toNat = (va.toNat + vb.toNat) % 32768 ∧ t.pc = s.pc + 4
      ∧ FrameOfRegWrite r s t

/-- `mult dest,a,b`. -/
def Obligations.MultWraps : Prop :=
  ∀ (s : State) (r : RegIdx) (a b : Src) (va vb : Word), s.resolve a = .ok va →
    s.resolve b = .ok vb →
    ∃ t, exec (.mult (.reg r) a b) s = .next t
      ∧ (t.reg r).toNat = (va.toNat * vb.toNat) % 32768 ∧ t.pc = s.pc + 4
      ∧ FrameOfRegWrite r s t

/-- `mod dest,a,b`: the exact unsigned remainder, or `DIV_ZERO`. -/
def Obligations.ModIsRemainder : Prop :=
  ∀ (s : State) (r : RegIdx) (a b : Src) (va vb : Word), s.resolve a = .ok va →
    s.resolve b = .ok vb →
    (vb.toNat = 0 → ∃ t, exec (.mod (.reg r) a b) s = .next t ∧ FaultTaken .divZero 0 s t)
      ∧ (vb.toNat ≠ 0 → ∃ t, exec (.mod (.reg r) a b) s = .next t
          ∧ (t.reg r).toNat = va.toNat % vb.toNat ∧ (t.reg r).toNat < vb.toNat
          ∧ t.pc = s.pc + 4 ∧ FrameOfRegWrite r s t)

/-- `and dest,a,b` and `or dest,a,b`, bit by bit. -/
def Obligations.AndOrActBitByBit : Prop :=
  ∀ (s : State) (r : RegIdx) (a b : Src) (va vb : Word), s.resolve a = .ok va →
    s.resolve b = .ok vb →
    (∃ t, exec (.and (.reg r) a b) s = .next t ∧ t.pc = s.pc + 4 ∧ FrameOfRegWrite r s t
        ∧ ∀ k, (t.reg r).getLsbD k = (va.getLsbD k && vb.getLsbD k))
      ∧ ∃ t, exec (.or (.reg r) a b) s = .next t ∧ t.pc = s.pc + 4 ∧ FrameOfRegWrite r s t
        ∧ ∀ k, (t.reg r).getLsbD k = (va.getLsbD k || vb.getLsbD k)

/-- `not dest,a`: the 15-bit complement, which is 32767 less the value. -/
def Obligations.NotComplements : Prop :=
  ∀ (s : State) (r : RegIdx) (a : Src) (va : Word), s.resolve a = .ok va →
    ∃ t, exec (.not (.reg r) a) s = .next t ∧ (t.reg r).toNat = 32767 - va.toNat
      ∧ t.pc = s.pc + 3 ∧ FrameOfRegWrite r s t

/-- `rmem dest,a`: the cell goes to the register whole, or raises `WIDE_VALUE`. -/
def Obligations.RmemReadsCell : Prop :=
  ∀ (s : State) (r : RegIdx) (a : Src) (va : Word), s.resolve a = .ok va →
    (32767 < (s.mem.read va.toNat).toNat → ∃ t, exec (.rmem (.reg r) a) s = .next t
        ∧ FaultTaken .wideValue (s.mem.read va.toNat).toNat s t)
      ∧ ((s.mem.read va.toNat).toNat ≤ 32767 → ∃ t, exec (.rmem (.reg r) a) s = .next t
        ∧ (t.reg r).toNat = (s.mem.read va.toNat).toNat ∧ t.pc = s.pc + 3
        ∧ FrameOfRegWrite r s t)

/-- `wmem a,b`: the cell at `a` holds the value of `b`, and every other address reads as before. -/
def Obligations.WmemWritesCell : Prop :=
  ∀ (s : State) (a b : Src) (va vb : Word), s.MemWf → s.resolve a = .ok va →
    s.resolve b = .ok vb →
    ∃ t, exec (.wmem a b) s = .next t ∧ (t.mem.read va.toNat).toNat = vb.toNat
      ∧ MemKeptBut va.toNat s t ∧ t.pc = s.pc + 3 ∧ RegsKept s t ∧ t.stack = s.stack
      ∧ StatusKept s t ∧ LatchAndHostKept s t ∧ t.output = s.output

/-- `call a`: the address after the call goes on top of the stack, unless the stack is full. -/
def Obligations.CallPushesReturnAddress : Prop :=
  ∀ (s : State) (a : Src) (va : Word), s.resolve a = .ok va →
    (StackCapacity.limit s.stackCapacity ≠ some s.stack.length →
        ∃ t, exec (.call a) s = .next t ∧ t.stack = (s.pc + 2) :: s.stack
          ∧ t.pc.toNat = va.toNat ∧ FrameOfStackWrite s t)
      ∧ (StackCapacity.limit s.stackCapacity = some s.stack.length →
        ∃ t, exec (.call a) s = .next t ∧ FaultTaken .stackOverflow 0 s t)

/-- `ret`: to the address on top of the stack, or a graceful halt when there is none. -/
def Obligations.RetReturnsOrHalts : Prop :=
  ∀ s : State,
    (s.stack = [] → ∃ t, exec .ret s = .next t ∧ HaltTaken .retEmpty s t)
      ∧ ∀ (top : Cell) (rest : List Cell), s.stack = top :: rest →
        ∃ t, exec .ret s = .next t ∧ t.pc = top ∧ t.stack = rest ∧ FrameOfStackWrite s t

/-- A `call` and then a `ret` resume at the address after the call, with the stack as it was. -/
def Obligations.CallThenRet : Prop :=
  ∀ (s : State) (a : Src) (va : Word), s.resolve a = .ok va → s.stackFull = false →
    ∃ t u, exec (.call a) s = .next t ∧ exec .ret t = .next u ∧ u.pc = s.pc + 2
      ∧ u.stack = s.stack ∧ FrameOfPcWrite s u

/-- `out a`: the value goes to the end of the output stream, in the instruction's own step. -/
def Obligations.OutEmitsValue : Prop :=
  ∀ (s : State) (a : Src) (va : Word), s.resolve a = .ok va →
    ∃ t, exec (.out a) s = .next t ∧ t.output = s.output ++ [va] ∧ t.pc = s.pc + 2
      ∧ RegsKept s t ∧ t.stack = s.stack ∧ MemKept s t ∧ StatusKept s t ∧ LatchAndHostKept s t

/-- The step of `in dest`: latch the register, enter WAIT_INPUT, and change nothing else. -/
def Obligations.InEntersWait : Prop :=
  ∀ (s : State) (r : RegIdx),
    ∃ t, exec (.inp (.reg r)) s = .next t ∧ t.inDest = r ∧ t.runState = .waitInput
      ∧ t.pc = s.pc ∧ RegsKept s t ∧ t.stack = s.stack ∧ MemKept s t ∧ t.output = s.output
      ∧ t.haltReason = s.haltReason ∧ t.faultCause = s.faultCause ∧ t.faultPc = s.faultPc
      ∧ t.faultInfo = s.faultInfo ∧ t.stackCapacity = s.stackCapacity ∧ t.hostOps = s.hostOps
      ∧ t.replies = s.replies

/-! ## The host interface -/

/-- `Deliver(c)`, enabled at the wait alone: the latched register takes c and the core runs on after the `in`, or
`WIDE_VALUE` is raised with c mod 65536. -/
def Obligations.DeliverCompletesIn : Prop :=
  ∀ (s : State) (c : Nat),
    ((HostOp.deliver c).enabled s.runState = true ↔ s.runState = .waitInput)
      ∧ performOp s (.deliver c) = s.deliver c
      ∧ (c ≤ 32767 → ((s.deliver c).reg s.inDest).toNat = c ∧ (s.deliver c).pc = s.pc + 2
        ∧ (s.deliver c).runState = .running ∧ RegsKeptBut s.inDest s (s.deliver c)
        ∧ (s.deliver c).stack = s.stack ∧ MemKept s (s.deliver c)
        ∧ (s.deliver c).haltReason = s.haltReason ∧ (s.deliver c).faultCause = s.faultCause
        ∧ (s.deliver c).faultPc = s.faultPc ∧ (s.deliver c).faultInfo = s.faultInfo
        ∧ LatchAndHostKept s (s.deliver c) ∧ (s.deliver c).output = s.output)
      ∧ (32767 < c → FaultTaken .wideValue (c % 65536) s (s.deliver c))

/-- An `in` in its two events, through two steps of the machine: executed in RUNNING, completed by
the delivery the host has queued (log entry 5). -/
def Obligations.InThenDeliver : Prop :=
  ∀ (s : State) (r : RegIdx) (rest : List Cell) (c : Nat) (ops : List HostOp),
    s.runState = .running → decode s.fetched = .ok (.inp (.reg r), rest) →
    s.hostOps = .deliver c :: ops → c ≤ 32767 →
    ∃ t u, step s = .next t ∧ t.runState = .waitInput ∧ t.pc = s.pc ∧ step t = .next u
      ∧ u.runState = .running ∧ (u.reg r).toNat = c ∧ u.pc = s.pc + 2 ∧ u.hostOps = ops
      ∧ RegsKeptBut r s u ∧ u.stack = s.stack ∧ MemKept s u ∧ u.output = s.output

/-- Only a delivery or an accepted restore ends the wait; every other host operation leaves the core
waiting, with pc, stack and memory as they are. -/
def Obligations.WaitEndsOnlyByHost : Prop :=
  ∀ s t : State, s.runState = .waitInput → step s = .next t →
    (∃ c ops, s.hostOps = .deliver c :: ops)
      ∨ (∃ p ops, s.hostOps = .restore (some p) :: ops ∧ p.valid s.stackCapacity = true)
      ∨ (t.runState = .waitInput ∧ t.pc = s.pc ∧ t.stack = s.stack ∧ MemKept s t
          ∧ t.inDest = s.inDest ∧ ∀ r, r ≠ 7 → t.reg r = s.reg r)

/-- `Snapshot()` lists pc, registers, stack from the bottom and all 32768 cells. -/
def Obligations.SnapshotListsState : Prop :=
  ∀ s : State, (HostOp.snapshot.enabled s.runState = true ↔ s.runState = .waitInput)
    ∧ s.snapshot.pc = s.pc.toNat
    ∧ (s.snapshot.x.length = 8 ∧ ∀ r : RegIdx, s.snapshot.x[r.val]? = some (s.reg r).toNat)
    ∧ s.snapshot.stack.length = s.stack.length
    ∧ (∀ k (h : k < s.stack.length),
        s.snapshot.stack[s.stack.length - 1 - k]? = some (s.stack[k]'h).toNat)
    ∧ s.snapshot.mem.length = 32768
    ∧ (∀ a, a < 32768 → s.snapshot.mem[a]? = some (s.mem.read a).toNat)
    ∧ performOp s .snapshot = { s with replies := s.replies ++ [.snapshotTaken s.snapshot] }

/-- A snapshot of a state that meets the invariant is one that `Restore` accepts. -/
def Obligations.SnapshotIsValid : Prop :=
  ∀ s : State, s.Inv → s.snapshot.valid s.stackCapacity = true

/-- `Restore(s)`: the model's check is `Valid(s)` in R253's numbers; a snapshot within them replaces
pc, registers, stack and memory and the core runs; any other snapshot, or none, changes nothing but the
report (the report and `none` are the model's: log entries 6 and 19). -/
def Obligations.RestoreReplacesOrRefuses : Prop :=
  (∀ (p : Snapshot) (cap : StackCapacity), p.valid cap = true ↔ SnapshotInRange p cap)
    ∧ ∀ s : State,
      (∀ p, (HostOp.restore p).enabled s.runState = true ↔ s.runState = .waitInput)
      ∧ (∀ p : Snapshot, SnapshotInRange p s.stackCapacity →
        ∃ t, performOp s (.restore (some p)) = t ∧ t.pc.toNat = p.pc
          ∧ (∀ r : RegIdx, p.x[r.val]? = some (t.reg r).toNat)
          ∧ (t.stack.map BitVec.toNat).reverse = p.stack
          ∧ (∀ a, a < 32768 → p.mem[a]? = some (t.mem.read a).toNat)
          ∧ t.runState = .running ∧ t.haltReason = s.haltReason ∧ t.faultCause = s.faultCause
          ∧ t.faultPc = s.faultPc ∧ t.faultInfo = s.faultInfo ∧ t.inDest = s.inDest
          ∧ t.output = s.output)
      ∧ (∀ p : Snapshot, ¬ SnapshotInRange p s.stackCapacity →
        performOp s (.restore (some p)) = { s with replies := s.replies ++ [.persistenceError] })
      ∧ performOp s (.restore none) = { s with replies := s.replies ++ [.persistenceError] }

/-- Snapshot and Restore at the wait: one step later the state is the one the snapshot was taken in,
and a later delivery gives what it would have given there; only the report is added, which is the
model's own record (log entry 6). -/
def Obligations.SnapshotRestoreRoundTrip : Prop :=
  ∀ s : State, s.Inv → s.runState = .waitInput →
    ∃ t, step (performOp s (.restore (some s.snapshot))) = .next t
      ∧ t = { s with replies := s.replies ++ [.restored] }
      ∧ ∀ c, t.deliver c = { s.deliver c with replies := s.replies ++ [.restored] }

/-- `WriteReg7(v)`: x[7] takes a v in 0..32767; anything else changes nothing but the report. (The
range is the spec's decision D16, log entry 15; the report and `none` for a value that is no integer
are the model's: log entries 6 and 19.) -/
def Obligations.WriteReg7WritesOrRefuses : Prop :=
  ∀ s : State,
    (∀ v, (HostOp.writeReg7 v).enabled s.runState = true ↔ s.runState = .waitInput)
      ∧ (∀ v : Int, 0 ≤ v → v ≤ 32767 →
        ∃ t, performOp s (.writeReg7 (some v)) = t ∧ ((t.reg 7).toNat : Int) = v
          ∧ RegsKeptBut 7 s t ∧ t.pc = s.pc ∧ t.stack = s.stack ∧ MemKept s t ∧ StatusKept s t
          ∧ t.inDest = s.inDest ∧ t.hostOps = s.hostOps ∧ t.output = s.output)
      ∧ (∀ v : Int, v < 0 ∨ 32767 < v →
        performOp s (.writeReg7 (some v)) = { s with replies := s.replies ++ [.reg7Refused] })
      ∧ performOp s (.writeReg7 none) = { s with replies := s.replies ++ [.reg7Refused] }

/-- The fields of `STATUS` as `ReadStatus` returns it, in the numbers of R29 and R31, with `FAULT_PC`
and `FAULT_INFO`; the reserved bits are 0, and the read changes nothing but the report (log entry 6). -/
def Obligations.ReadStatusFields : Prop :=
  ∀ s : State,
    HostOp.readStatus.enabled s.runState = true
      ∧ (s.readStatus.status.extractLsb' 0 2).toNat
        = (match s.runState with
          | .running => 0
          | .waitInput => 1
          | .halted => 2
          | .faulted => 3)
      ∧ (s.readStatus.status.extractLsb' 2 2).toNat
        = (match s.haltReason with
          | none => 0
          | some .haltInstr => 1
          | some .retEmpty => 2)
      ∧ (s.readStatus.status.extractLsb' 4 4).toNat
        = (match s.faultCause with
          | none => 0
          | some .unknownOpcode => 1
          | some .stackEmpty => 2
          | some .badOperand => 3
          | some .badDest => 4
          | some .divZero => 5
          | some .fetchRange => 6
          | some .wideValue => 7
          | some .stackOverflow => 8)
      ∧ (s.readStatus.status.extractLsb' 8 8).toNat = 0
      ∧ s.readStatus.faultPc = s.faultPc ∧ s.readStatus.faultInfo = s.faultInfo
      ∧ performOp s .readStatus = { s with replies := s.replies ++ [.status s.readStatus] }

/-- A host operation that is queued is performed at the wait, whichever it is, and taken off the
queue first (log entry 5). -/
def Obligations.HostTurnTakesNextOperation : Prop :=
  ∀ (s : State) (op : HostOp) (ops : List HostOp), s.runState = .waitInput →
    s.hostOps = op :: ops → step s = .next (performOp { s with hostOps := ops } op)

/-! ## Load and reset -/

/-- `Load(image)`: the image's words little-endian from cell 0, zeros after them, and every other
piece of state as reset leaves it (R270, R272); a missing, odd or too long image fails. (The capacity
and the host's side in the reset state are the model's: log entries 4, 5 and 6.) -/
def Obligations.LoadFillsMemory : Prop :=
  ∀ cap : StackCapacity,
    (∀ bs : List Byte, bs.length % 2 = 0 → bs.length ≤ 65536 →
        ∃ s, loadImage cap (some bs) = .ok s
          ∧ (∀ k lo hi, bs[2 * k]? = some lo → bs[2 * k + 1]? = some hi →
              (s.mem.read k).toNat = lo.toNat + 256 * hi.toNat)
          ∧ (∀ k, bs.length / 2 ≤ k → s.mem.read k = 0)
          ∧ s = { State.reset with mem := s.mem, stackCapacity := cap })
      ∧ (∀ bs : List Byte, bs.length % 2 = 1 ∨ 65536 < bs.length →
        ∃ e, loadImage cap (some bs) = .error e)
      ∧ ∃ e, loadImage cap none = .error e

/-- A loaded machine meets the invariant, whatever the image and the capacity. -/
def Obligations.LoadedStateMeetsInvariant : Prop :=
  ∀ (cap : StackCapacity) (image : Option (List Byte)) (s : State),
    loadImage cap image = .ok s → s.Inv

/-- The reset state of the spec's own state: every value that the spec gives. -/
def Obligations.ResetValues : Prop :=
  State.reset.pc = 0 ∧ (∀ r, State.reset.reg r = 0) ∧ State.reset.stack = []
    ∧ (∀ a, State.reset.mem.read a = 0) ∧ State.reset.readStatus = ⟨0, 0, 0⟩
    ∧ State.reset.runState = .running ∧ State.reset.inDest = 0

/-- The reset state meets the invariant. -/
def Obligations.ResetMeetsInvariant : Prop := State.reset.Inv

/-! ## Whole-machine rules -/

/-- Every transition, the core's and the host's, keeps the invariant: the pc and the stack entries in
0..32768, the depth within `STACK_CAPACITY`, memory canonical, a waiting core at an `in` with its
register latched, and the status fields coherent. -/
def Obligations.StepKeepsInvariant : Prop :=
  ∀ s t : State, s.Inv → step s = .next t → t.Inv

/-- Every transition keeps memory's canonical form, in every state, whatever else holds in it. -/
def Obligations.StepKeepsMemoryCanonical : Prop :=
  ∀ s t : State, s.MemWf → step s = .next t → t.MemWf

/-- No instruction writes a register but the one its destination names, and `in` writes none in its
own step. -/
def Obligations.OnlyDestinationIsWritten : Prop :=
  ∀ (i : Instr) (s t : State) (r : RegIdx), exec i s = .next t → t.reg r ≠ s.reg r →
    i.dests = [.reg r] ∧ ∀ d, i ≠ .inp d

/-- Memory changes only by `wmem` and by an accepted restore. -/
def Obligations.OnlyWmemAndRestoreWriteMemory : Prop :=
  ∀ s t : State, step s = .next t → t.mem ≠ s.mem →
    (s.runState = .running ∧ ∃ a b rest, decode s.fetched = .ok (.wmem a b, rest))
      ∨ (s.runState = .waitInput ∧ ∃ p ops, s.hostOps = .restore (some p) :: ops
          ∧ p.valid s.stackCapacity = true)

/-- The pc moves only in the ways of R25, each for its own instructions. An instruction leaves it where
it is in the four outcomes of R107, advances it where it transfers no control, or sets it to its target
or to the entry a `ret` pops. A step in RUNNING runs an instruction, or raises a fault of the fetch.
Outside RUNNING only a delivery, by 2, and an accepted restore move it. (The queue is the model's: log
entry 5.) -/
def Obligations.PcChangesOnlyAsListed : Prop :=
  (∀ (i : Instr) (s t : State), exec i s = .next t → PcMovesAsListed i s t)
    ∧ (∀ s t : State, s.runState = .running → step s = .next t →
      (t.pc = s.pc ∧ ∃ cause info, FaultTaken cause info s t)
        ∨ ∃ i rest, decode s.fetched = .ok (i, rest) ∧ PcMovesAsListed i s t)
    ∧ ∀ s t : State, s.runState ≠ .running → step s = .next t → t.pc ≠ s.pc →
      s.runState = .waitInput
        ∧ ((∃ c ops, s.hostOps = .deliver c :: ops ∧ c ≤ 32767 ∧ t.pc = s.pc + 2)
          ∨ ∃ p ops, s.hostOps = .restore (some p) :: ops ∧ SnapshotInRange p s.stackCapacity
            ∧ t.pc.toNat = p.pc)

/-- A run halts in exactly two ways. -/
def Obligations.OnlyHaltAndEmptyRetHalt : Prop :=
  ∀ (i : Instr) (s t : State), s.runState = .running → exec i s = .next t →
    (t.runState = .halted ↔ i = .halt ∨ (i = .ret ∧ s.stack = []))

/-- Fetch is coherent with `wmem`: the very next fetch reads the written value in every one of its
words that lies in the written cell, the `wmem`'s own words among them if control comes back. -/
def Obligations.WmemSeenByNextFetch : Prop :=
  ∀ (s : State) (a b : Src) (va vb : Word), s.MemWf → s.resolve a = .ok va →
    s.resolve b = .ok vb →
    ∃ t, exec (.wmem a b) s = .next t
      ∧ ∀ (pc' : Cell) (k : Nat), k < 4 → pc'.toNat + k = va.toNat →
          ({ t with pc := pc' } : State).fetched[k]? = some (zext16 vb)

/-- The host never interrupts a step: in RUNNING the step is the same whatever the host has queued
and whatever was reported to it. -/
def Obligations.CoreStepIgnoresHost : Prop :=
  ∀ (s t : State) (ops : List HostOp) (rs : List HostReply), s.runState = .running →
    step s = .next t →
    step { s with hostOps := ops, replies := rs } = .next { t with hostOps := ops, replies := rs }

/-- The disassembler's listing covers every address of memory, 0 to 32767, exactly once, in order. -/
def Obligations.ListingCoversEveryAddressOnce : Prop :=
  ∀ m : Memory, (listing m).flatMap ListLine.covers = List.range 32768

/-- Every line of the listing, from whatever address the pass starts: an instruction line has the
mnemonic and the arity that its address's cell selects and the raw cells after it, all of them in
memory; a `>>` line has its address's cell, which is no opcode, or stands where an instruction's
operand words would pass address 32767. -/
def Obligations.ListingLinesMatchMemory : Prop :=
  ∀ (m : Memory) (fuel start : Nat) (line : ListLine), line ∈ listFrom m fuel start →
    match line with
    | .instr a name ops =>
      (∃ row, opTable[(m.read a).toNat]? = some row ∧ name = row.mnemonic
          ∧ ops.length = row.roles.length)
        ∧ (∀ k, k < ops.length → ops[k]? = some (m.read (a + 1 + k)))
        ∧ start ≤ a ∧ a + ops.length ≤ 32767
    | .data a w =>
      w = m.read a ∧ start ≤ a ∧ a ≤ 32767
        ∧ (21 < w.toNat ∨ ∃ b n, start ≤ b ∧ b ≤ a ∧ arityOf (m.read b) = some n ∧ 32767 < b + n)
end

