-- ==== Sys2Proof/Laws/Decode.lean ====
section
/-!
SUPPORT. The laws of the decoder's parts: operand words, formats, and how many words an instruction
takes.
-/

namespace Sys2Proof

@[simp] theorem toNat_zext16 (v : Word) : (zext16 v).toNat = v.toNat := by
  have := v.isLt
  simp only [zext16, BitVec.toNat_setWidth]
  omega

@[simp] theorem low15_zext16 (v : Word) : low15 (zext16 v) = v := by
  apply BitVec.eq_of_toNat_eq
  have := v.isLt
  simp only [low15, zext16, BitVec.toNat_setWidth]
  omega

theorem toNat_low15 {c : Cell} (h : c.toNat ≤ 32767) : (low15 c).toNat = c.toNat := by
  simp only [low15, BitVec.toNat_setWidth]
  omega

theorem zext16_low15 {c : Cell} (h : c.toNat ≤ 32767) : zext16 (low15 c) = c := by
  apply BitVec.eq_of_toNat_eq
  rw [toNat_zext16, toNat_low15 h]

@[simp] theorem toNat_regCell (r : RegIdx) : (regCell r).toNat = 32768 + r.val := by
  have := r.isLt
  simp only [regCell, BitVec.toNat_ofNat]
  omega

@[simp] theorem cellReg_regCell (r : RegIdx) : cellReg (regCell r) = r := by
  apply Fin.ext
  have := r.isLt
  simp only [cellReg, toNat_regCell, Fin.val_ofNat]
  omega

theorem regCell_cellReg {w : Cell} (h : 32768 ≤ w.toNat) (h' : w.toNat ≤ 32775) :
    regCell (cellReg w) = w := by
  apply BitVec.eq_of_toNat_eq
  simp only [toNat_regCell, cellReg, Fin.val_ofNat]
  omega

theorem Src.ofCell_of_le {w : Cell} (h : w.toNat ≤ 32767) : Src.ofCell w = .lit (low15 w) :=
  if_pos h

theorem Src.ofCell_of_reg {w : Cell} (h : 32768 ≤ w.toNat) (h' : w.toNat ≤ 32775) :
    Src.ofCell w = .reg (cellReg w) := by
  rw [Src.ofCell, if_neg (by omega), if_pos h']

theorem Src.ofCell_of_gt {w : Cell} (h : 32775 < w.toNat) : Src.ofCell w = .undef w := by
  rw [Src.ofCell, if_neg (by omega), if_neg (by omega)]

theorem Dest.ofCell_of_reg {w : Cell} (h : 32768 ≤ w.toNat) (h' : w.toNat ≤ 32775) :
    Dest.ofCell w = .reg (cellReg w) :=
  if_pos ⟨h, h'⟩

theorem Dest.ofCell_of_not {w : Cell} (h : w.toNat < 32768 ∨ 32775 < w.toNat) :
    Dest.ofCell w = .notReg w :=
  if_neg (by omega)

theorem regCell_range (r : RegIdx) : 32768 ≤ (regCell r).toNat ∧ (regCell r).toNat ≤ 32775 := by
  have := r.isLt
  rw [toNat_regCell]
  omega

/-- Sorting the word of an encodable source operand gives the operand back. -/
theorem Src.ofCell_toCell {a : Src} (h : a.encodable = true) : Src.ofCell a.toCell = a := by
  cases a with
  | lit v =>
    have hv : (zext16 v).toNat ≤ 32767 := by
      have := v.isLt
      rw [toNat_zext16]
      omega
    exact (Src.ofCell_of_le hv).trans (by rw [low15_zext16])
  | reg r =>
    exact (Src.ofCell_of_reg (regCell_range r).1 (regCell_range r).2).trans
      (by rw [cellReg_regCell])
  | undef w => exact Src.ofCell_of_gt (of_decide_eq_true h)

/-- Every word is the word of the source operand it is sorted as. -/
theorem Src.toCell_ofCell (w : Cell) : (Src.ofCell w).toCell = w := by
  unfold Src.ofCell
  split
  · exact zext16_low15 ‹_›
  · split
    · exact regCell_cellReg (by omega) ‹_›
    · rfl

theorem Src.ofCell_encodable (w : Cell) : (Src.ofCell w).encodable = true := by
  unfold Src.ofCell
  split
  · rfl
  · split
    · rfl
    · simp only [Src.encodable, decide_eq_true_eq]
      omega

/-- Sorting the word of an encodable destination operand gives the operand back. -/
theorem Dest.ofCell_toCell {d : Dest} (h : d.encodable = true) : Dest.ofCell d.toCell = d := by
  cases d with
  | reg r =>
    exact (Dest.ofCell_of_reg (regCell_range r).1 (regCell_range r).2).trans
      (by rw [cellReg_regCell])
  | notReg w => exact Dest.ofCell_of_not (of_decide_eq_true h)

theorem Dest.toCell_ofCell (w : Cell) : (Dest.ofCell w).toCell = w := by
  unfold Dest.ofCell
  split
  · rename_i h
    exact regCell_cellReg h.1 h.2
  · rfl

theorem Dest.ofCell_encodable (w : Cell) : (Dest.ofCell w).encodable = true := by
  unfold Dest.ofCell
  split
  · rfl
  · simp only [Dest.encodable, decide_eq_true_eq]
    omega

theorem takeF1_ok {f : Cell → Instr} {ws rest : List Cell} {i : Instr}
    (h : takeF1 f ws = .ok (i, rest)) : ∃ w1, ws = w1 :: rest ∧ i = f w1 := by
  cases ws with
  | nil => cases h
  | cons w1 ws =>
    cases h
    exact ⟨w1, rfl, rfl⟩

theorem takeF2_ok {f : Cell → Cell → Instr} {ws rest : List Cell} {i : Instr}
    (h : takeF2 f ws = .ok (i, rest)) : ∃ w1 w2, ws = w1 :: w2 :: rest ∧ i = f w1 w2 := by
  match ws, h with
  | w1 :: w2 :: _, h =>
    cases h
    exact ⟨w1, w2, rfl, rfl⟩

theorem takeF3_ok {f : Cell → Cell → Cell → Instr} {ws rest : List Cell} {i : Instr}
    (h : takeF3 f ws = .ok (i, rest)) :
    ∃ w1 w2 w3, ws = w1 :: w2 :: w3 :: rest ∧ i = f w1 w2 w3 := by
  match ws, h with
  | w1 :: w2 :: w3 :: _, h =>
    cases h
    exact ⟨w1, w2, w3, rfl, rfl⟩

/-- A format that needs more words than there are says how many words are there. -/
theorem takeF1_error {f : Cell → Instr} {ws : List Cell} {e : DecodeReject}
    (h : takeF1 f ws = .error e) : e = .truncated (1 + ws.length) ∧ ws.length < 1 := by
  cases ws <;> cases h
  simp

theorem takeF2_error {f : Cell → Cell → Instr} {ws : List Cell} {e : DecodeReject}
    (h : takeF2 f ws = .error e) : e = .truncated (1 + ws.length) ∧ ws.length < 2 := by
  match ws, h with
  | [], h => cases h; simp
  | [_], h => cases h; simp

theorem takeF3_error {f : Cell → Cell → Cell → Instr} {ws : List Cell} {e : DecodeReject}
    (h : takeF3 f ws = .error e) : e = .truncated (1 + ws.length) ∧ ws.length < 3 := by
  match ws, h with
  | [], h => cases h; simp
  | [_], h => cases h; simp
  | [_, _], h => cases h; simp

end Sys2Proof
end

