-- ==== Sys2Proof/Laws/State.lean ====
section
/-!
SUPPORT. One lemma per field per update of State, each true by unfolding the update once, so that no
later proof unfolds one; and what a register reads after a register write.
-/

namespace Sys2Proof.Machine

variable (s : State)

@[simp] theorem State.setReg_pc (r : RegIdx) (v : Word) :
    (s.setReg r v).pc = s.pc := rfl
@[simp] theorem State.setReg_x (r : RegIdx) (v : Word) :
    (s.setReg r v).x = s.x.set r.val v r.isLt := rfl
@[simp] theorem State.setReg_stack (r : RegIdx) (v : Word) :
    (s.setReg r v).stack = s.stack := rfl
@[simp] theorem State.setReg_mem (r : RegIdx) (v : Word) :
    (s.setReg r v).mem = s.mem := rfl
@[simp] theorem State.setReg_runState (r : RegIdx) (v : Word) :
    (s.setReg r v).runState = s.runState := rfl
@[simp] theorem State.setReg_haltReason (r : RegIdx) (v : Word) :
    (s.setReg r v).haltReason = s.haltReason := rfl
@[simp] theorem State.setReg_faultCause (r : RegIdx) (v : Word) :
    (s.setReg r v).faultCause = s.faultCause := rfl
@[simp] theorem State.setReg_faultPc (r : RegIdx) (v : Word) :
    (s.setReg r v).faultPc = s.faultPc := rfl
@[simp] theorem State.setReg_faultInfo (r : RegIdx) (v : Word) :
    (s.setReg r v).faultInfo = s.faultInfo := rfl
@[simp] theorem State.setReg_inDest (r : RegIdx) (v : Word) :
    (s.setReg r v).inDest = s.inDest := rfl
@[simp] theorem State.setReg_stackCapacity (r : RegIdx) (v : Word) :
    (s.setReg r v).stackCapacity = s.stackCapacity := rfl
@[simp] theorem State.setReg_hostOps (r : RegIdx) (v : Word) :
    (s.setReg r v).hostOps = s.hostOps := rfl
@[simp] theorem State.setReg_output (r : RegIdx) (v : Word) :
    (s.setReg r v).output = s.output := rfl
@[simp] theorem State.setReg_replies (r : RegIdx) (v : Word) :
    (s.setReg r v).replies = s.replies := rfl

@[simp] theorem State.writeCell_pc (a : Word) (c : Cell) :
    (s.writeCell a c).pc = s.pc := rfl
@[simp] theorem State.writeCell_x (a : Word) (c : Cell) :
    (s.writeCell a c).x = s.x := rfl
@[simp] theorem State.writeCell_stack (a : Word) (c : Cell) :
    (s.writeCell a c).stack = s.stack := rfl
@[simp] theorem State.writeCell_mem (a : Word) (c : Cell) :
    (s.writeCell a c).mem = s.mem.write a.toNat c := rfl
@[simp] theorem State.writeCell_runState (a : Word) (c : Cell) :
    (s.writeCell a c).runState = s.runState := rfl
@[simp] theorem State.writeCell_haltReason (a : Word) (c : Cell) :
    (s.writeCell a c).haltReason = s.haltReason := rfl
@[simp] theorem State.writeCell_faultCause (a : Word) (c : Cell) :
    (s.writeCell a c).faultCause = s.faultCause := rfl
@[simp] theorem State.writeCell_faultPc (a : Word) (c : Cell) :
    (s.writeCell a c).faultPc = s.faultPc := rfl
@[simp] theorem State.writeCell_faultInfo (a : Word) (c : Cell) :
    (s.writeCell a c).faultInfo = s.faultInfo := rfl
@[simp] theorem State.writeCell_inDest (a : Word) (c : Cell) :
    (s.writeCell a c).inDest = s.inDest := rfl
@[simp] theorem State.writeCell_stackCapacity (a : Word) (c : Cell) :
    (s.writeCell a c).stackCapacity = s.stackCapacity := rfl
@[simp] theorem State.writeCell_hostOps (a : Word) (c : Cell) :
    (s.writeCell a c).hostOps = s.hostOps := rfl
@[simp] theorem State.writeCell_output (a : Word) (c : Cell) :
    (s.writeCell a c).output = s.output := rfl
@[simp] theorem State.writeCell_replies (a : Word) (c : Cell) :
    (s.writeCell a c).replies = s.replies := rfl

@[simp] theorem State.advance_pc (n : Nat) :
    (s.advance n).pc = s.next n := rfl
@[simp] theorem State.advance_x (n : Nat) :
    (s.advance n).x = s.x := rfl
@[simp] theorem State.advance_stack (n : Nat) :
    (s.advance n).stack = s.stack := rfl
@[simp] theorem State.advance_mem (n : Nat) :
    (s.advance n).mem = s.mem := rfl
@[simp] theorem State.advance_runState (n : Nat) :
    (s.advance n).runState = s.runState := rfl
@[simp] theorem State.advance_haltReason (n : Nat) :
    (s.advance n).haltReason = s.haltReason := rfl
@[simp] theorem State.advance_faultCause (n : Nat) :
    (s.advance n).faultCause = s.faultCause := rfl
@[simp] theorem State.advance_faultPc (n : Nat) :
    (s.advance n).faultPc = s.faultPc := rfl
@[simp] theorem State.advance_faultInfo (n : Nat) :
    (s.advance n).faultInfo = s.faultInfo := rfl
@[simp] theorem State.advance_inDest (n : Nat) :
    (s.advance n).inDest = s.inDest := rfl
@[simp] theorem State.advance_stackCapacity (n : Nat) :
    (s.advance n).stackCapacity = s.stackCapacity := rfl
@[simp] theorem State.advance_hostOps (n : Nat) :
    (s.advance n).hostOps = s.hostOps := rfl
@[simp] theorem State.advance_output (n : Nat) :
    (s.advance n).output = s.output := rfl
@[simp] theorem State.advance_replies (n : Nat) :
    (s.advance n).replies = s.replies := rfl

@[simp] theorem State.jump_pc (v : Word) :
    (s.jump v).pc = zext16 v := rfl
@[simp] theorem State.jump_x (v : Word) :
    (s.jump v).x = s.x := rfl
@[simp] theorem State.jump_stack (v : Word) :
    (s.jump v).stack = s.stack := rfl
@[simp] theorem State.jump_mem (v : Word) :
    (s.jump v).mem = s.mem := rfl
@[simp] theorem State.jump_runState (v : Word) :
    (s.jump v).runState = s.runState := rfl
@[simp] theorem State.jump_haltReason (v : Word) :
    (s.jump v).haltReason = s.haltReason := rfl
@[simp] theorem State.jump_faultCause (v : Word) :
    (s.jump v).faultCause = s.faultCause := rfl
@[simp] theorem State.jump_faultPc (v : Word) :
    (s.jump v).faultPc = s.faultPc := rfl
@[simp] theorem State.jump_faultInfo (v : Word) :
    (s.jump v).faultInfo = s.faultInfo := rfl
@[simp] theorem State.jump_inDest (v : Word) :
    (s.jump v).inDest = s.inDest := rfl
@[simp] theorem State.jump_stackCapacity (v : Word) :
    (s.jump v).stackCapacity = s.stackCapacity := rfl
@[simp] theorem State.jump_hostOps (v : Word) :
    (s.jump v).hostOps = s.hostOps := rfl
@[simp] theorem State.jump_output (v : Word) :
    (s.jump v).output = s.output := rfl
@[simp] theorem State.jump_replies (v : Word) :
    (s.jump v).replies = s.replies := rfl

@[simp] theorem State.push_pc (c : Cell) :
    (s.push c).pc = s.pc := rfl
@[simp] theorem State.push_x (c : Cell) :
    (s.push c).x = s.x := rfl
@[simp] theorem State.push_stack (c : Cell) :
    (s.push c).stack = c :: s.stack := rfl
@[simp] theorem State.push_mem (c : Cell) :
    (s.push c).mem = s.mem := rfl
@[simp] theorem State.push_runState (c : Cell) :
    (s.push c).runState = s.runState := rfl
@[simp] theorem State.push_haltReason (c : Cell) :
    (s.push c).haltReason = s.haltReason := rfl
@[simp] theorem State.push_faultCause (c : Cell) :
    (s.push c).faultCause = s.faultCause := rfl
@[simp] theorem State.push_faultPc (c : Cell) :
    (s.push c).faultPc = s.faultPc := rfl
@[simp] theorem State.push_faultInfo (c : Cell) :
    (s.push c).faultInfo = s.faultInfo := rfl
@[simp] theorem State.push_inDest (c : Cell) :
    (s.push c).inDest = s.inDest := rfl
@[simp] theorem State.push_stackCapacity (c : Cell) :
    (s.push c).stackCapacity = s.stackCapacity := rfl
@[simp] theorem State.push_hostOps (c : Cell) :
    (s.push c).hostOps = s.hostOps := rfl
@[simp] theorem State.push_output (c : Cell) :
    (s.push c).output = s.output := rfl
@[simp] theorem State.push_replies (c : Cell) :
    (s.push c).replies = s.replies := rfl

@[simp] theorem State.raiseFault_pc (k : FaultCause) (w : Cell) :
    (s.raiseFault k w).pc = s.pc := rfl
@[simp] theorem State.raiseFault_x (k : FaultCause) (w : Cell) :
    (s.raiseFault k w).x = s.x := rfl
@[simp] theorem State.raiseFault_stack (k : FaultCause) (w : Cell) :
    (s.raiseFault k w).stack = s.stack := rfl
@[simp] theorem State.raiseFault_mem (k : FaultCause) (w : Cell) :
    (s.raiseFault k w).mem = s.mem := rfl
@[simp] theorem State.raiseFault_runState (k : FaultCause) (w : Cell) :
    (s.raiseFault k w).runState = .faulted := rfl
@[simp] theorem State.raiseFault_haltReason (k : FaultCause) (w : Cell) :
    (s.raiseFault k w).haltReason = s.haltReason := rfl
@[simp] theorem State.raiseFault_faultCause (k : FaultCause) (w : Cell) :
    (s.raiseFault k w).faultCause = some k := rfl
@[simp] theorem State.raiseFault_faultPc (k : FaultCause) (w : Cell) :
    (s.raiseFault k w).faultPc = s.pc := rfl
@[simp] theorem State.raiseFault_faultInfo (k : FaultCause) (w : Cell) :
    (s.raiseFault k w).faultInfo = w := rfl
@[simp] theorem State.raiseFault_inDest (k : FaultCause) (w : Cell) :
    (s.raiseFault k w).inDest = s.inDest := rfl
@[simp] theorem State.raiseFault_stackCapacity (k : FaultCause) (w : Cell) :
    (s.raiseFault k w).stackCapacity = s.stackCapacity := rfl
@[simp] theorem State.raiseFault_hostOps (k : FaultCause) (w : Cell) :
    (s.raiseFault k w).hostOps = s.hostOps := rfl
@[simp] theorem State.raiseFault_output (k : FaultCause) (w : Cell) :
    (s.raiseFault k w).output = s.output := rfl
@[simp] theorem State.raiseFault_replies (k : FaultCause) (w : Cell) :
    (s.raiseFault k w).replies = s.replies := rfl

@[simp] theorem State.haltWith_pc (h : HaltReason) :
    (s.haltWith h).pc = s.pc := rfl
@[simp] theorem State.haltWith_x (h : HaltReason) :
    (s.haltWith h).x = s.x := rfl
@[simp] theorem State.haltWith_stack (h : HaltReason) :
    (s.haltWith h).stack = s.stack := rfl
@[simp] theorem State.haltWith_mem (h : HaltReason) :
    (s.haltWith h).mem = s.mem := rfl
@[simp] theorem State.haltWith_runState (h : HaltReason) :
    (s.haltWith h).runState = .halted := rfl
@[simp] theorem State.haltWith_haltReason (h : HaltReason) :
    (s.haltWith h).haltReason = some h := rfl
@[simp] theorem State.haltWith_faultCause (h : HaltReason) :
    (s.haltWith h).faultCause = s.faultCause := rfl
@[simp] theorem State.haltWith_faultPc (h : HaltReason) :
    (s.haltWith h).faultPc = s.faultPc := rfl
@[simp] theorem State.haltWith_faultInfo (h : HaltReason) :
    (s.haltWith h).faultInfo = s.faultInfo := rfl
@[simp] theorem State.haltWith_inDest (h : HaltReason) :
    (s.haltWith h).inDest = s.inDest := rfl
@[simp] theorem State.haltWith_stackCapacity (h : HaltReason) :
    (s.haltWith h).stackCapacity = s.stackCapacity := rfl
@[simp] theorem State.haltWith_hostOps (h : HaltReason) :
    (s.haltWith h).hostOps = s.hostOps := rfl
@[simp] theorem State.haltWith_output (h : HaltReason) :
    (s.haltWith h).output = s.output := rfl
@[simp] theorem State.haltWith_replies (h : HaltReason) :
    (s.haltWith h).replies = s.replies := rfl

@[simp] theorem State.outWrite_pc (v : Word) :
    (s.outWrite v).pc = s.pc := rfl
@[simp] theorem State.outWrite_x (v : Word) :
    (s.outWrite v).x = s.x := rfl
@[simp] theorem State.outWrite_stack (v : Word) :
    (s.outWrite v).stack = s.stack := rfl
@[simp] theorem State.outWrite_mem (v : Word) :
    (s.outWrite v).mem = s.mem := rfl
@[simp] theorem State.outWrite_runState (v : Word) :
    (s.outWrite v).runState = s.runState := rfl
@[simp] theorem State.outWrite_haltReason (v : Word) :
    (s.outWrite v).haltReason = s.haltReason := rfl
@[simp] theorem State.outWrite_faultCause (v : Word) :
    (s.outWrite v).faultCause = s.faultCause := rfl
@[simp] theorem State.outWrite_faultPc (v : Word) :
    (s.outWrite v).faultPc = s.faultPc := rfl
@[simp] theorem State.outWrite_faultInfo (v : Word) :
    (s.outWrite v).faultInfo = s.faultInfo := rfl
@[simp] theorem State.outWrite_inDest (v : Word) :
    (s.outWrite v).inDest = s.inDest := rfl
@[simp] theorem State.outWrite_stackCapacity (v : Word) :
    (s.outWrite v).stackCapacity = s.stackCapacity := rfl
@[simp] theorem State.outWrite_hostOps (v : Word) :
    (s.outWrite v).hostOps = s.hostOps := rfl
@[simp] theorem State.outWrite_output (v : Word) :
    (s.outWrite v).output = s.output ++ [v] := rfl
@[simp] theorem State.outWrite_replies (v : Word) :
    (s.outWrite v).replies = s.replies := rfl

@[simp] theorem State.reply_pc (r : HostReply) :
    (s.reply r).pc = s.pc := rfl
@[simp] theorem State.reply_x (r : HostReply) :
    (s.reply r).x = s.x := rfl
@[simp] theorem State.reply_stack (r : HostReply) :
    (s.reply r).stack = s.stack := rfl
@[simp] theorem State.reply_mem (r : HostReply) :
    (s.reply r).mem = s.mem := rfl
@[simp] theorem State.reply_runState (r : HostReply) :
    (s.reply r).runState = s.runState := rfl
@[simp] theorem State.reply_haltReason (r : HostReply) :
    (s.reply r).haltReason = s.haltReason := rfl
@[simp] theorem State.reply_faultCause (r : HostReply) :
    (s.reply r).faultCause = s.faultCause := rfl
@[simp] theorem State.reply_faultPc (r : HostReply) :
    (s.reply r).faultPc = s.faultPc := rfl
@[simp] theorem State.reply_faultInfo (r : HostReply) :
    (s.reply r).faultInfo = s.faultInfo := rfl
@[simp] theorem State.reply_inDest (r : HostReply) :
    (s.reply r).inDest = s.inDest := rfl
@[simp] theorem State.reply_stackCapacity (r : HostReply) :
    (s.reply r).stackCapacity = s.stackCapacity := rfl
@[simp] theorem State.reply_hostOps (r : HostReply) :
    (s.reply r).hostOps = s.hostOps := rfl
@[simp] theorem State.reply_output (r : HostReply) :
    (s.reply r).output = s.output := rfl
@[simp] theorem State.reply_replies (r : HostReply) :
    (s.reply r).replies = s.replies ++ [r] := rfl

@[simp] theorem State.reg_setReg_same (r : RegIdx) (v : Word) : (s.setReg r v).reg r = v := by
  simp [State.reg]

@[simp] theorem State.reg_setReg_of_ne (v : Word) {r q : RegIdx} (h : q ≠ r) :
    (s.setReg r v).reg q = s.reg q := by
  have h' : r.val ≠ q.val := fun e => h (Fin.ext e.symm)
  simp [State.reg, h']

@[simp] theorem State.reg_writeCell (a : Word) (c : Cell) (q : RegIdx) :
    (s.writeCell a c).reg q = s.reg q := rfl
@[simp] theorem State.reg_advance (n : Nat) (q : RegIdx) : (s.advance n).reg q = s.reg q := rfl
@[simp] theorem State.reg_jump (v : Word) (q : RegIdx) : (s.jump v).reg q = s.reg q := rfl
@[simp] theorem State.reg_push (c : Cell) (q : RegIdx) : (s.push c).reg q = s.reg q := rfl
@[simp] theorem State.reg_raiseFault (k : FaultCause) (w : Cell) (q : RegIdx) :
    (s.raiseFault k w).reg q = s.reg q := rfl
@[simp] theorem State.reg_haltWith (h : HaltReason) (q : RegIdx) :
    (s.haltWith h).reg q = s.reg q := rfl
@[simp] theorem State.reg_outWrite (v : Word) (q : RegIdx) : (s.outWrite v).reg q = s.reg q := rfl
@[simp] theorem State.reg_reply (r : HostReply) (q : RegIdx) : (s.reply r).reg q = s.reg q := rfl

/-- Two register files that read alike are equal. -/
theorem State.x_ext {s t : State} (h : ∀ r, t.reg r = s.reg r) : t.x = s.x := by
  apply Vector.ext
  intro i hi
  exact h ⟨i, hi⟩

/-! ## The capacity of the stack -/

@[simp] theorem StackCapacity.limit_unbounded : StackCapacity.limit .unbounded = none := rfl
@[simp] theorem StackCapacity.limit_entries (n : Nat) (h : 1 ≤ n) :
    StackCapacity.limit (.entries n h) = some n := rfl

/-- A bounded stack has room for at least one entry (R8). -/
theorem StackCapacity.one_le_limit {cap : StackCapacity} {n : Nat}
    (h : StackCapacity.limit cap = some n) : 1 ≤ n := by
  cases cap with
  | unbounded => cases h
  | entries m hm => cases h; exact hm

theorem StackCapacity.full_iff {cap : StackCapacity} {depth : Nat} :
    StackCapacity.full cap depth = true ↔ StackCapacity.limit cap = some depth := by
  cases cap <;> simp [StackCapacity.full, eq_comm]

theorem StackCapacity.fits_iff {cap : StackCapacity} {depth : Nat} :
    StackCapacity.fits cap depth = true ↔ ∀ n, StackCapacity.limit cap = some n → depth ≤ n := by
  cases cap <;> simp [StackCapacity.fits]

end Sys2Proof.Machine
end

