-- ==== Sys2Proof/Laws/Operands.lean ====
section
/-!
SUPPORT. One lemma per shared operation of the meanings that says once everything it can answer: each
goes on, or takes the one fault it raises. Each has its going-on equation beside it.
-/

namespace Sys2Proof.Machine

theorem fault_eq (s : State) (c : FaultCause) (w : Cell) : fault s c w = .next (s.raiseFault c w) :=
  rfl

theorem fault_next_iff {s t : State} {c : FaultCause} {w : Cell} :
    fault s c w = .next t ↔ t = s.raiseFault c w := by
  rw [fault_eq, Host.Outcome.next.injEq, eq_comm]

theorem withSrc_ok {s : State} {a : Src} {v : Word} (k : Word → Result)
    (h : s.resolve a = .ok v) : withSrc s a k = k v := by
  rw [withSrc, h]

theorem withSrc_error {s : State} {a : Src} {w : Cell} (k : Word → Result)
    (h : s.resolve a = .error w) : withSrc s a k = fault s .badOperand w := by
  rw [withSrc, h]

/-- A resolved source operand is legal. -/
theorem State.resolve_ok_legal {s : State} {a : Src} {v : Word} (h : s.resolve a = .ok v) :
    a.legal = true := by
  cases a <;> first | rfl | cases h

/-- A source operand fails to resolve only as the illegal word it is. -/
theorem State.resolve_error_iff {s : State} {a : Src} {w : Cell} :
    s.resolve a = .error w ↔ a = .undef w := by
  cases a <;> simp [State.resolve]

theorem withSrc_next {s t : State} {a : Src} {k : Word → Result} (h : withSrc s a k = .next t) :
    (∃ v, s.resolve a = .ok v ∧ k v = .next t)
      ∨ ∃ w, a = .undef w ∧ t = s.raiseFault .badOperand w := by
  cases hr : s.resolve a with
  | ok v => exact .inl ⟨v, rfl, withSrc_ok k hr ▸ h⟩
  | error w =>
    exact .inr ⟨w, State.resolve_error_iff.mp hr, fault_next_iff.mp (withSrc_error k hr ▸ h)⟩

theorem withDest_reg (s : State) (r : RegIdx) (k : RegIdx → Result) :
    withDest s (.reg r) k = k r := rfl

theorem withDest_notReg (s : State) (w : Cell) (k : RegIdx → Result) :
    withDest s (.notReg w) k = fault s .badDest w := rfl

theorem withDest_next {s t : State} {d : Dest} {k : RegIdx → Result}
    (h : withDest s d k = .next t) :
    (∃ r, d = .reg r ∧ k r = .next t) ∨ ∃ w, d = .notReg w ∧ t = s.raiseFault .badDest w := by
  cases d with
  | reg r => exact .inl ⟨r, rfl, h⟩
  | notReg w => exact .inr ⟨w, rfl, fault_next_iff.mp h⟩

theorem withDSS_ok {s : State} {r : RegIdx} {a b : Src} {va vb : Word}
    (k : RegIdx → Word → Word → Result) (ha : s.resolve a = .ok va) (hb : s.resolve b = .ok vb) :
    withDSS s (.reg r) a b k = k r va vb := by
  rw [withDSS, withDest_reg, withSrc_ok _ ha, withSrc_ok _ hb]

theorem withDS_ok {s : State} {r : RegIdx} {a : Src} {va : Word} (k : RegIdx → Word → Result)
    (ha : s.resolve a = .ok va) : withDS s (.reg r) a k = k r va := by
  rw [withDS, withDest_reg, withSrc_ok _ ha]

theorem withSS_ok {s : State} {a b : Src} {va vb : Word} (k : Word → Word → Result)
    (ha : s.resolve a = .ok va) (hb : s.resolve b = .ok vb) : withSS s a b k = k va vb := by
  rw [withSS, withSrc_ok _ ha, withSrc_ok _ hb]

/-- `t` is `s` with an operand fault taken. -/
def OperandFault (s t : State) : Prop :=
  ∃ c w, (c = .badDest ∨ c = .badOperand) ∧ t = s.raiseFault c w

theorem withDSS_next {s t : State} {d : Dest} {a b : Src} {k : RegIdx → Word → Word → Result}
    (h : withDSS s d a b k = .next t) :
    (∃ r va vb, d = .reg r ∧ s.resolve a = .ok va ∧ s.resolve b = .ok vb ∧ k r va vb = .next t)
      ∨ OperandFault s t := by
  obtain ⟨r, hd, h⟩ | ⟨w, -, ht⟩ := withDest_next h
  · obtain ⟨va, ha, h⟩ | ⟨w, -, ht⟩ := withSrc_next h
    · obtain ⟨vb, hb, h⟩ | ⟨w, -, ht⟩ := withSrc_next h
      · exact .inl ⟨r, va, vb, hd, ha, hb, h⟩
      · exact .inr ⟨_, w, .inr rfl, ht⟩
    · exact .inr ⟨_, w, .inr rfl, ht⟩
  · exact .inr ⟨_, w, .inl rfl, ht⟩

theorem withDS_next {s t : State} {d : Dest} {a : Src} {k : RegIdx → Word → Result}
    (h : withDS s d a k = .next t) :
    (∃ r va, d = .reg r ∧ s.resolve a = .ok va ∧ k r va = .next t) ∨ OperandFault s t := by
  obtain ⟨r, hd, h⟩ | ⟨w, -, ht⟩ := withDest_next h
  · obtain ⟨va, ha, h⟩ | ⟨w, -, ht⟩ := withSrc_next h
    · exact .inl ⟨r, va, hd, ha, h⟩
    · exact .inr ⟨_, w, .inr rfl, ht⟩
  · exact .inr ⟨_, w, .inl rfl, ht⟩

theorem withSS_next {s t : State} {a b : Src} {k : Word → Word → Result}
    (h : withSS s a b k = .next t) :
    (∃ va vb, s.resolve a = .ok va ∧ s.resolve b = .ok vb ∧ k va vb = .next t)
      ∨ OperandFault s t := by
  obtain ⟨va, ha, h⟩ | ⟨w, -, ht⟩ := withSrc_next h
  · obtain ⟨vb, hb, h⟩ | ⟨w, -, ht⟩ := withSrc_next h
    · exact .inl ⟨va, vb, ha, hb, h⟩
    · exact .inr ⟨_, w, .inr rfl, ht⟩
  · exact .inr ⟨_, w, .inr rfl, ht⟩

theorem condHolds_iff {a : Word} : condHolds a = true ↔ a.toNat ≠ 0 := decide_eq_true_iff

theorem not_condHolds_iff {a : Word} : ¬ condHolds a = true ↔ a.toNat = 0 := by
  rw [condHolds_iff, not_not]

theorem withPush_room {s : State} (c : Cell) (k : State → Result) (h : s.stackFull = false) :
    withPush s c k = k (s.push c) := by
  simp [withPush, h]

theorem withPush_next {s t : State} {c : Cell} {k : State → Result}
    (h : withPush s c k = .next t) :
    (s.stackFull = false ∧ k (s.push c) = .next t)
      ∨ (s.stackFull = true ∧ t = s.raiseFault .stackOverflow 0) := by
  unfold withPush at h
  split at h
  · exact .inr ⟨‹_›, fault_next_iff.mp h⟩
  · rename_i hf
    exact .inl ⟨Bool.eq_false_iff.mpr hf, h⟩

theorem withWord_narrow {s : State} {c : Cell} (k : Word → Result) (h : c.toNat ≤ 32767) :
    withWord s c k = k (low15 c) := by
  simp [withWord, Nat.not_lt.mpr h]

theorem withWord_next {s t : State} {c : Cell} {k : Word → Result} (h : withWord s c k = .next t) :
    (c.toNat ≤ 32767 ∧ k (low15 c) = .next t)
      ∨ (32767 < c.toNat ∧ t = s.raiseFault .wideValue c) := by
  unfold withWord at h
  split at h
  · exact .inr ⟨‹_›, fault_next_iff.mp h⟩
  · exact .inl ⟨by omega, h⟩

theorem writeBack_next {s t : State} {r : RegIdx} {v : Word} {n : Nat} :
    writeBack s r v n = .next t ↔ t = (s.setReg r v).advance n := by
  rw [writeBack, Host.Outcome.next.injEq, eq_comm]

end Sys2Proof.Machine
end

