-- ==== Sys2Proof/Laws/Exec.lean ====
section
/-!
SUPPORT. Everything an instruction can do, said once: `exec_effect` sorts every next state of `exec` into
one of the named effects below, so that a statement about all instructions splits effects and never
unfolds a meaning. `coreStep_next` and `hostTurn_next` do the same for a step, and the `_cases` lemmas
for the host operations that branch.
-/

namespace Sys2Proof.Machine

/-- The effects of an instruction `i` on a state `s`, with the instructions that have each. -/
inductive Effect (i : Instr) (s : State) : State → Prop where
  /-- A fault is raised. -/
  | fault (c : FaultCause) (w : Cell) : Effect i s (s.raiseFault c w)
  /-- The destination register is written, by an instruction other than `pop` and `in`. -/
  | regWrite (r : RegIdx) (v : Word) (hd : i.dests = [.reg r]) (hi : ∀ d, i ≠ .inp d)
      (hp : ∀ d, i ≠ .pop d) : Effect i s ((s.setReg r v).advance (1 + i.arity))
  /-- `pop` takes the top entry. -/
  | popReg (r : RegIdx) (v : Word) (top : Cell) (rest : List Cell) (hi : i = .pop (.reg r))
      (hs : s.stack = top :: rest) :
      Effect i s (({ s with stack := rest }.setReg r v).advance (1 + i.arity))
  /-- `wmem` writes a cell. -/
  | store (a b : Src) (va vb : Word) (hi : i = .wmem a b) (ha : s.resolve a = .ok va)
      (hb : s.resolve b = .ok vb) :
      Effect i s ((s.writeCell va (zext16 vb)).advance (1 + i.arity))
  /-- `push` puts a value on a stack with room. -/
  | pushWord (a : Src) (va : Word) (hi : i = .push a) (hf : s.stackFull = false) :
      Effect i s ((s.push (zext16 va)).advance (1 + i.arity))
  /-- `call` pushes the return address on a stack with room and jumps. -/
  | callTo (a : Src) (va : Word) (hi : i = .call a) (hf : s.stackFull = false)
      (ha : s.resolve a = .ok va) : Effect i s ((s.push (s.next 2)).jump va)
  /-- A jump is taken. -/
  | jumpTo (a : Src) (va : Word)
      (hi : i = .jmp a ∨ (∃ c v, i = .jt c a ∧ s.resolve c = .ok v ∧ v.toNat ≠ 0)
        ∨ ∃ c v, i = .jf c a ∧ s.resolve c = .ok v ∧ v.toNat = 0)
      (ha : s.resolve a = .ok va) : Effect i s (s.jump va)
  /-- Only the pc advances: `noop`, or a conditional jump that is not taken. -/
  | advance (hi : i = .noop ∨ (∃ c a v, i = .jt c a ∧ s.resolve c = .ok v ∧ v.toNat = 0)
        ∨ ∃ c a v, i = .jf c a ∧ s.resolve c = .ok v ∧ v.toNat ≠ 0) :
      Effect i s (s.advance (1 + i.arity))
  /-- `ret` pops the pc. -/
  | retTo (top : Cell) (rest : List Cell) (hi : i = .ret) (hs : s.stack = top :: rest) :
      Effect i s { s with stack := rest, pc := top }
  /-- `ret` halts on an empty stack. -/
  | retHalt (hi : i = .ret) (hs : s.stack = []) : Effect i s (s.haltWith .retEmpty)
  /-- `halt`. -/
  | haltNow (hi : i = .halt) : Effect i s (s.haltWith .haltInstr)
  /-- `out` emits a value. -/
  | emit (a : Src) (v : Word) (hi : i = .out a) : Effect i s ((s.outWrite v).advance (1 + i.arity))
  /-- `in` enters the wait. -/
  | wait (r : RegIdx) (hi : i = .inp (.reg r)) :
      Effect i s { s with inDest := r, runState := .waitInput }

theorem OperandFault.effect {i : Instr} {s t : State} (h : OperandFault s t) : Effect i s t := by
  obtain ⟨c, w, -, rfl⟩ := h
  exact .fault c w

/-- The register-writing instructions of the pattern D S S. -/
theorem dss_effect {i : Instr} {s t : State} {d : Dest} {a b : Src} {f : Word → Word → Word}
    (hd : i.dests = [d]) (hi : ∀ d, i ≠ .inp d) (hp : ∀ d, i ≠ .pop d)
    (h : withDSS s d a b (fun r va vb => writeBack s r (f va vb) (1 + i.arity)) = .next t) :
    Effect i s t := by
  rcases withDSS_next h with ⟨r, va, vb, rfl, -, -, h⟩ | h
  · rw [writeBack_next.mp h]
    exact .regWrite r _ hd hi hp
  · exact h.effect

theorem exec_effect {i : Instr} {s t : State} (h : exec i s = .next t) : Effect i s t := by
  cases i with
  | halt =>
    cases h
    exact .haltNow rfl
  | noop =>
    cases h
    exact .advance (.inl rfl)
  | ret =>
    simp only [exec, execRet] at h
    split at h
    · cases h
      exact .retHalt rfl ‹_›
    · cases h
      exact .retTo _ _ rfl ‹_›
  | set d a =>
    rcases withDS_next (show withDS s d a _ = _ from h) with ⟨r, va, rfl, -, hw⟩ | hf
    · rw [writeBack_next.mp hw]
      exact .regWrite (i := .set (.reg r) a) r va rfl (by simp) (by simp)
    · exact hf.effect
  | not d a =>
    rcases withDS_next (show withDS s d a _ = _ from h) with ⟨r, va, rfl, -, hw⟩ | hf
    · rw [writeBack_next.mp hw]
      exact .regWrite (i := .not (.reg r) a) r _ rfl (by simp) (by simp)
    · exact hf.effect
  | rmem d a =>
    rcases withDS_next (show withDS s d a _ = _ from h) with ⟨r, va, rfl, -, hw⟩ | hf
    · rcases withWord_next hw with ⟨-, hw⟩ | ⟨-, rfl⟩
      · rw [writeBack_next.mp hw]
        exact .regWrite (i := .rmem (.reg r) a) r _ rfl (by simp) (by simp)
      · exact .fault _ _
    · exact hf.effect
  | eq d a b => exact dss_effect (f := fun x y => truth (testEq x y)) rfl (by simp) (by simp) h
  | gt d a b => exact dss_effect (f := fun x y => truth (testGt x y)) rfl (by simp) (by simp) h
  | add d a b => exact dss_effect (f := aluAdd) rfl (by simp) (by simp) h
  | mult d a b => exact dss_effect (f := aluMult) rfl (by simp) (by simp) h
  | and d a b => exact dss_effect (f := aluAnd) rfl (by simp) (by simp) h
  | or d a b => exact dss_effect (f := aluOr) rfl (by simp) (by simp) h
  | mod d a b =>
    rcases withDSS_next (show withDSS s d a b _ = _ from h) with ⟨r, va, vb, rfl, -, -, hw⟩ | hf
    · split at hw
      · rw [fault_next_iff.mp hw]
        exact .fault _ _
      · rw [writeBack_next.mp hw]
        exact .regWrite (i := .mod (.reg r) a b) r _ rfl (by simp) (by simp)
    · exact hf.effect
  | push a =>
    rcases withSrc_next (show withSrc s a _ = _ from h) with ⟨v, -, hk⟩ | ⟨w, -, rfl⟩
    · rcases withPush_next hk with ⟨hf, hk⟩ | ⟨-, rfl⟩
      · cases hk
        exact .pushWord a v rfl hf
      · exact .fault _ _
    · exact .fault _ _
  | call a =>
    rcases withSrc_next (show withSrc s a _ = _ from h) with ⟨v, hv, hk⟩ | ⟨w, -, rfl⟩
    · rcases withPush_next hk with ⟨hf, hk⟩ | ⟨-, rfl⟩
      · cases hk
        exact .callTo a v rfl hf hv
      · exact .fault _ _
    · exact .fault _ _
  | jmp a =>
    rcases withSrc_next (show withSrc s a _ = _ from h) with ⟨v, hv, hk⟩ | ⟨w, -, rfl⟩
    · cases hk
      exact .jumpTo a v (.inl rfl) hv
    · exact .fault _ _
  | jt a b =>
    rcases withSS_next (show withSS s a b _ = _ from h) with ⟨v, w, hv, hw, hk⟩ | hf
    · cases hk
      split
      · exact .jumpTo b w (.inr (.inl ⟨a, v, rfl, hv, condHolds_iff.mp ‹_›⟩)) hw
      · exact .advance (i := .jt a b) (.inr (.inl ⟨a, b, v, rfl, hv, not_condHolds_iff.mp ‹_›⟩))
    · exact hf.effect
  | jf a b =>
    rcases withSS_next (show withSS s a b _ = _ from h) with ⟨v, w, hv, hw, hk⟩ | hf
    · cases hk
      split
      · exact .advance (i := .jf a b) (.inr (.inr ⟨a, b, v, rfl, hv, condHolds_iff.mp ‹_›⟩))
      · exact .jumpTo b w (.inr (.inr ⟨a, v, rfl, hv, not_condHolds_iff.mp ‹_›⟩)) hw
    · exact hf.effect
  | wmem a b =>
    rcases withSS_next (show withSS s a b _ = _ from h) with ⟨v, w, hv, hw, hk⟩ | hf
    · cases hk
      exact .store a b v w rfl hv hw
    · exact hf.effect
  | out a =>
    rcases withSrc_next (show withSrc s a _ = _ from h) with ⟨v, -, hk⟩ | ⟨w, -, rfl⟩
    · cases hk
      exact .emit a v rfl
    · exact .fault _ _
  | pop d =>
    rcases withDest_next (show withDest s d _ = _ from h) with ⟨r, rfl, hk⟩ | ⟨w, -, rfl⟩
    · clear h
      split at hk
      · rw [fault_next_iff.mp hk]
        exact .fault _ _
      · rename_i top rest hs
        rcases withWord_next hk with ⟨-, hk⟩ | ⟨-, rfl⟩
        · rw [writeBack_next.mp hk]
          exact .popReg r _ top rest rfl hs
        · exact .fault _ _
    · exact .fault _ _
  | inp d =>
    rcases withDest_next (show withDest s d _ = _ from h) with ⟨r, rfl, hk⟩ | ⟨w, -, rfl⟩
    · cases hk
      exact .wait r rfl
    · exact .fault _ _

/-- A step of the core raises a fault of the fetch or runs a decoded instruction. -/
theorem coreStep_next {s t : State} (h : coreStep s = .next t) :
    (∃ c w, t = s.raiseFault c w)
      ∨ ∃ i rest, decode s.fetched = .ok (i, rest) ∧ exec i s = .next t := by
  unfold coreStep at h
  split at h
  · exact .inr ⟨_, _, ‹_›, h⟩
  · exact .inl ⟨_, _, fault_next_iff.mp h⟩
  · exact .inl ⟨_, _, fault_next_iff.mp h⟩

theorem step_of_running {s : State} (h : s.runState = .running) : step s = coreStep s := by
  rw [step, h]

theorem step_of_not_running {s : State} (h : s.runState ≠ .running) : step s = hostTurn s := by
  unfold step
  cases hs : s.runState <;> simp_all

/-- The host's turn performs the next queued operation, which is enabled. -/
theorem hostTurn_next {s t : State} (h : hostTurn s = .next t) :
    ∃ op rest, s.hostOps = op :: rest ∧ op.enabled s.runState = true
      ∧ t = performOp { s with hostOps := rest } op := by
  unfold hostTurn at h
  split at h
  · cases h
  · split at h
    · cases h
      exact ⟨_, _, ‹_›, ‹_›, rfl⟩
    · cases h

theorem performOp_restore_cases (s : State) (p : Option Snapshot) :
    (∃ q, p = some q ∧ q.valid s.stackCapacity = true
        ∧ performOp s (.restore p) = (s.restoreFrom q).reply .restored)
      ∨ performOp s (.restore p) = s.reply .persistenceError := by
  cases p with
  | none => exact .inr rfl
  | some q =>
    cases h : q.valid s.stackCapacity
    · exact .inr (by simp [performOp, restoreAccepts, h])
    · exact .inl ⟨q, rfl, h, by simp [performOp, restoreAccepts, h]⟩

theorem performOp_writeReg7_cases (s : State) (v : Option Int) :
    (∃ n, performOp s (.writeReg7 v) = (s.writeReg7 n).reply .reg7Written)
      ∨ performOp s (.writeReg7 v) = s.reply .reg7Refused := by
  simp only [performOp]
  split
  · exact .inl ⟨_, rfl⟩
  · exact .inr rfl

theorem State.deliver_cases (s : State) (c : Nat) :
    (∃ w, s.deliver c = s.raiseFault .wideValue w)
      ∨ s.deliver c
          = { (s.setReg s.inDest (BitVec.ofNat 15 c)).advance 2 with runState := .running } := by
  unfold State.deliver
  split
  · exact .inl ⟨_, rfl⟩
  · exact .inr rfl

end Sys2Proof.Machine
end

