-- ==== Sys2Proof/Laws/Memory.lean ====
section
/-!
SUPPORT. The laws of memory: what a read answers after a write, that every memory operation keeps the
canonical form, and that canonical memories which read alike are equal.
-/

namespace Sys2Proof.Machine

/-- The address bound a canonical memory respects, as a number. -/
theorem Config.memWords_eq : Config.memWords = 32768 := rfl

theorem Memory.wfFrom_cons {lo k : Nat} {c : Cell} {m : Memory} :
    Memory.wfFrom lo ((k, c) :: m) = true ↔
      lo ≤ k ∧ k < Config.memWords ∧ c ≠ Memory.unlisted ∧ Memory.wfFrom (k + 1) m = true := by
  simp [Memory.wfFrom, and_assoc]

theorem Memory.wfFrom_mono {m : Memory} {lo hi : Nat} (hle : lo ≤ hi)
    (h : Memory.wfFrom hi m = true) : Memory.wfFrom lo m = true := by
  cases m with
  | nil => rfl
  | cons e m =>
    rw [Memory.wfFrom_cons] at h ⊢
    exact ⟨by omega, h.2⟩

/-- Below its first address a canonical memory reads as reset leaves it. -/
theorem Memory.read_below {m : Memory} {lo a : Nat} (h : Memory.wfFrom lo m = true) (ha : a < lo) :
    m.read a = Memory.unlisted := by
  induction m generalizing lo with
  | nil => rfl
  | cons e m ih =>
    obtain ⟨k, c⟩ := e
    rw [Memory.wfFrom_cons] at h
    have hk : a ≠ k := by omega
    simpa [Memory.read, hk] using ih h.2.2.2 (by omega)

/-- At and beyond the end of memory a canonical memory lists nothing. -/
theorem Memory.read_beyond {m : Memory} {lo a : Nat} (h : Memory.wfFrom lo m = true)
    (ha : Config.memWords ≤ a) : m.read a = Memory.unlisted := by
  induction m generalizing lo with
  | nil => rfl
  | cons e m ih =>
    obtain ⟨k, c⟩ := e
    rw [Memory.wfFrom_cons] at h
    have hk : a ≠ k := by omega
    simpa [Memory.read, hk] using ih h.2.2.2

theorem Memory.wfFrom_consEntry {m : Memory} {a : Nat} (c : Cell) (ha : a < Config.memWords)
    (h : Memory.wfFrom (a + 1) m = true) : Memory.wfFrom a (Memory.cons a c m) = true := by
  unfold Memory.cons
  split
  · exact Memory.wfFrom_mono (by omega) h
  · exact Memory.wfFrom_cons.mpr ⟨le_rfl, ha, ‹_›, h⟩

/-- A write inside memory keeps the canonical form. -/
theorem Memory.write_wfFrom {m : Memory} {lo a : Nat} (c : Cell) (h : Memory.wfFrom lo m = true)
    (hlo : lo ≤ a) (ha : a < Config.memWords) : Memory.wfFrom lo (m.write a c) = true := by
  induction m generalizing lo with
  | nil => exact Memory.wfFrom_mono hlo (Memory.wfFrom_consEntry c ha rfl)
  | cons e m ih =>
    obtain ⟨k, d⟩ := e
    have hs := Memory.wfFrom_cons.mp h
    unfold Memory.write
    split
    · exact Memory.wfFrom_mono hlo (Memory.wfFrom_consEntry c ha
        (Memory.wfFrom_cons.mpr ⟨by omega, hs.2⟩))
    · split
      · rename_i hak
        exact Memory.wfFrom_mono hlo (Memory.wfFrom_consEntry c ha (hak ▸ hs.2.2.2))
      · exact Memory.wfFrom_cons.mpr ⟨hs.1, hs.2.1, hs.2.2.1, ih hs.2.2.2 (by omega)⟩

theorem Memory.write_wf {m : Memory} {a : Nat} (c : Cell) (h : Memory.wf m = true)
    (ha : a < Config.memWords) : Memory.wf (m.write a c) = true :=
  Memory.write_wfFrom c h (Nat.zero_le a) ha

theorem Memory.read_consEntry {m : Memory} {a : Nat} (c : Cell) (b : Nat)
    (h : m.read a = Memory.unlisted) :
    (Memory.cons a c m).read b = if b = a then c else m.read b := by
  unfold Memory.cons
  split
  · split
    · simp_all
    · rfl
  · rfl

/-- What every address reads after a write to one of them. -/
theorem Memory.read_write {m : Memory} {lo a : Nat} (c : Cell) (b : Nat)
    (h : Memory.wfFrom lo m = true) :
    (m.write a c).read b = if b = a then c else m.read b := by
  induction m generalizing lo with
  | nil => exact Memory.read_consEntry c b rfl
  | cons e m ih =>
    obtain ⟨k, d⟩ := e
    have hs := Memory.wfFrom_cons.mp h
    unfold Memory.write
    split
    · rename_i hak
      exact Memory.read_consEntry c b
        (Memory.read_below (Memory.wfFrom_cons.mpr ⟨le_rfl, hs.2⟩) hak)
    · split
      · rename_i hak
        subst hak
        rw [Memory.read_consEntry c b (Memory.read_below hs.2.2.2 (by omega))]
        by_cases hb : b = a <;> simp [Memory.read, hb]
      · rename_i hak
        simp only [Memory.read, ih hs.2.2.2]
        by_cases hb : b = k
        · have : b ≠ a := by omega
          simp [hb]
          omega
        · simp [hb]

theorem Memory.read_write_same {m : Memory} {a : Nat} (c : Cell) (h : Memory.wf m = true) :
    (m.write a c).read a = c := by
  simp [Memory.read_write c a h]

theorem Memory.read_write_of_ne {m : Memory} {a b : Nat} (c : Cell) (h : Memory.wf m = true)
    (hb : b ≠ a) : (m.write a c).read b = m.read b := by
  simp [Memory.read_write c b h, hb]

/-- Storing cells, as withFetchWord does, keeps the canonical form. -/
theorem Memory.store_wf {m : Memory} {cs : List Cell} {a : Nat} (h : Memory.wf m = true) :
    Memory.wf (m.store a cs) = true := by
  induction cs generalizing m a with
  | nil => exact h
  | cons c cs ih =>
    unfold Memory.store
    split
    · exact ih (Memory.write_wf c h ‹_›)
    · exact ih h

/-- A memory made of a list of cells that fits is canonical. -/
theorem Memory.ofCells_wfFrom {cs : List Cell} {a : Nat} (h : a + cs.length ≤ Config.memWords) :
    Memory.wfFrom a (Memory.ofCells a cs) = true := by
  induction cs generalizing a with
  | nil => rfl
  | cons c cs ih =>
    simp only [List.length_cons] at h
    exact Memory.wfFrom_consEntry c (by omega) (ih (by omega))

theorem Memory.ofCells_wf {cs : List Cell} (h : cs.length ≤ Config.memWords) :
    Memory.wf (Memory.ofCells 0 cs) = true :=
  Memory.ofCells_wfFrom (by omega)

/-- What an address reads in a memory made of a list of cells. -/
theorem Memory.read_ofCells {cs : List Cell} {a : Nat} (b : Nat)
    (h : a + cs.length ≤ Config.memWords) :
    (Memory.ofCells a cs).read b = if a ≤ b then cs.getD (b - a) Memory.unlisted else Memory.unlisted := by
  induction cs generalizing a with
  | nil => simp [Memory.ofCells, Memory.read]
  | cons c cs ih =>
    simp only [List.length_cons] at h
    have hf : a + 1 + cs.length ≤ Config.memWords := by omega
    rw [Memory.ofCells, Memory.read_consEntry c b
      (Memory.read_below (Memory.ofCells_wfFrom hf) (by omega)), ih hf]
    rcases Nat.lt_trichotomy b a with hb | hb | hb
    · simp [show b ≠ a by omega, show ¬ a ≤ b by omega, show ¬ a + 1 ≤ b by omega]
    · simp [hb]
    · obtain ⟨n, rfl⟩ := Nat.exists_eq_add_of_le hb
      simp [show a + 1 + n - a = n + 1 by omega, show a ≤ a + 1 + n by omega,
        show a + 1 + n ≠ a by omega]

/-- Canonical memories that read alike are equal. -/
theorem Memory.ext_of_read {m n : Memory} {lo : Nat} (hm : Memory.wfFrom lo m = true)
    (hn : Memory.wfFrom lo n = true) (h : ∀ a, m.read a = n.read a) : m = n := by
  induction m generalizing n lo with
  | nil =>
    cases n with
    | nil => rfl
    | cons e n =>
      obtain ⟨k, c⟩ := e
      have hs := Memory.wfFrom_cons.mp hn
      have := h k
      simp only [Memory.read, if_true] at this
      exact absurd this.symm hs.2.2.1
  | cons e m ih =>
    obtain ⟨k, c⟩ := e
    have hs := Memory.wfFrom_cons.mp hm
    cases n with
    | nil =>
      have := h k
      simp only [Memory.read, if_true] at this
      exact absurd this hs.2.2.1
    | cons f n =>
      obtain ⟨l, d⟩ := f
      have ht := Memory.wfFrom_cons.mp hn
      have hkl : k = l := by
        rcases Nat.lt_trichotomy k l with hlt | heq | hgt
        · have := h k
          rw [Memory.read_below (Memory.wfFrom_cons.mpr ⟨le_rfl, ht.2⟩) hlt] at this
          simp only [Memory.read, if_true] at this
          exact absurd this hs.2.2.1
        · exact heq
        · have := h l
          rw [Memory.read_below (Memory.wfFrom_cons.mpr ⟨le_rfl, hs.2⟩) hgt] at this
          simp only [Memory.read, if_true] at this
          exact absurd this.symm ht.2.2.1
      subst hkl
      have hcd : c = d := by simpa [Memory.read] using h k
      subst hcd
      have hmn : m = n := by
        refine ih hs.2.2.2 ht.2.2.2 fun a => ?_
        by_cases hak : a = k
        · subst hak
          rw [Memory.read_below hs.2.2.2 (by omega), Memory.read_below ht.2.2.2 (by omega)]
        · simpa [Memory.read, hak] using h a
      rw [hmn]

theorem Memory.length_toCells (m : Memory) : m.toCells.length = Config.memWords := by
  simp [Memory.toCells]

/-- Writing all the cells of a canonical memory out and taking them in again gives it back. -/
theorem Memory.ofCells_toCells {m : Memory} (h : Memory.wf m = true) :
    Memory.ofCells 0 m.toCells = m := by
  have hl : 0 + m.toCells.length ≤ Config.memWords := by simp [Memory.length_toCells]
  refine Memory.ext_of_read (Memory.ofCells_wfFrom hl) h fun a => ?_
  rw [Memory.read_ofCells a hl]
  by_cases ha : a < Config.memWords
  · simp [Memory.toCells, List.getD, ha]
  · rw [Memory.read_beyond h (by omega)]
    simp [Memory.toCells, List.getD, ha]

/-- What the fetch reads: as many of the `n` cells from `a` as memory has. -/
theorem Memory.length_fetchCells (m : Memory) (n a : Nat) :
    (m.fetchCells n a).length = min n (Config.memWords - a) := by
  induction n generalizing a with
  | zero => simp [Memory.fetchCells]
  | succ n ih =>
    unfold Memory.fetchCells
    split
    · simp only [List.length_cons, ih]
      omega
    · simp only [List.length_nil]
      omega

/-- Each fetched cell is the one memory holds at its address. -/
theorem Memory.getElem?_fetchCells (m : Memory) {n a k : Nat} (hk : k < n)
    (ha : a + k < Config.memWords) : (m.fetchCells n a)[k]? = some (m.read (a + k)) := by
  induction n generalizing a k with
  | zero => omega
  | succ n ih =>
    have h0 : a < Config.memWords := by omega
    unfold Memory.fetchCells
    rw [if_pos h0]
    cases k with
    | zero => rfl
    | succ k =>
      rw [List.getElem?_cons_succ, ih (by omega) (by omega)]
      congr 2
      omega

end Sys2Proof.Machine
end

