-- ==== Sys2Proof/Laws/PerInstr.lean ====
section
/-!
SUPPORT. The per-instruction law `EncodedWords`: an instruction's encoding is as many words as its
format has, and the arity the opcode table gives for its first word is its number of operands (R70,
R74, R76).
-/

namespace Sys2Proof.Laws.EncodedWords

/-- The encoding is one opcode word and `arity` operand words, and the table's row for that opcode
word has this arity. -/
def Statement (i : Instr) : Prop :=
  (encode i).length = 1 + i.arity ∧ ((encode i).head?).bind arityOf = some i.arity

theorem halt : Statement (.halt) := ⟨rfl, rfl⟩

theorem set (d : Dest) (a : Src) : Statement (.set d a) := ⟨rfl, rfl⟩

theorem push (a : Src) : Statement (.push a) := ⟨rfl, rfl⟩

theorem pop (d : Dest) : Statement (.pop d) := ⟨rfl, rfl⟩

theorem eq (d : Dest) (a b : Src) : Statement (.eq d a b) := ⟨rfl, rfl⟩

theorem gt (d : Dest) (a b : Src) : Statement (.gt d a b) := ⟨rfl, rfl⟩

theorem jmp (a : Src) : Statement (.jmp a) := ⟨rfl, rfl⟩

theorem jt (a b : Src) : Statement (.jt a b) := ⟨rfl, rfl⟩

theorem jf (a b : Src) : Statement (.jf a b) := ⟨rfl, rfl⟩

theorem add (d : Dest) (a b : Src) : Statement (.add d a b) := ⟨rfl, rfl⟩

theorem mult (d : Dest) (a b : Src) : Statement (.mult d a b) := ⟨rfl, rfl⟩

theorem mod (d : Dest) (a b : Src) : Statement (.mod d a b) := ⟨rfl, rfl⟩

theorem and (d : Dest) (a b : Src) : Statement (.and d a b) := ⟨rfl, rfl⟩

theorem or (d : Dest) (a b : Src) : Statement (.or d a b) := ⟨rfl, rfl⟩

theorem not (d : Dest) (a : Src) : Statement (.not d a) := ⟨rfl, rfl⟩

theorem rmem (d : Dest) (a : Src) : Statement (.rmem d a) := ⟨rfl, rfl⟩

theorem wmem (a b : Src) : Statement (.wmem a b) := ⟨rfl, rfl⟩

theorem call (a : Src) : Statement (.call a) := ⟨rfl, rfl⟩

theorem ret : Statement (.ret) := ⟨rfl, rfl⟩

theorem out (a : Src) : Statement (.out a) := ⟨rfl, rfl⟩

theorem inp (d : Dest) : Statement (.inp d) := ⟨rfl, rfl⟩

theorem noop : Statement (.noop) := ⟨rfl, rfl⟩

end Sys2Proof.Laws.EncodedWords
end

