-- ==== Sys2Proof/Tests/Slice0.lean ====
section
/-!
SUPPORT. The model's own tests. Expected results are the spec's: the vectors W and V of
95_test_vectors.md, the examples and corner cases of the rules, and words written out from the
encoding lines of 41 to 48. At the end, a witness for the hypotheses of each statement.
-/

open Sys2Proof Sys2Proof.Machine

/-! ## Helpers -/

/-- The reset state with words in memory from address `a` and the pc there. -/
def Sys2Proof.Tests.progAt (a : Nat) (ws : List Cell) : State :=
  { State.reset with pc := BitVec.ofNat 16 a, mem := Memory.ofCells a ws }

/-- The reset state with words in memory from address 0. -/
def Sys2Proof.Tests.prog (ws : List Cell) : State := Tests.progAt 0 ws

/-- The state after one step. -/
def Sys2Proof.Tests.after (s : State) : Option State := nextState (step s)

/-- What one step from `s` ends in: the fault's cause, `FAULT_PC`, `FAULT_INFO` and the pc. -/
def Sys2Proof.Tests.faultOf (s : State) : Option (Option FaultCause × Cell × Cell × Cell) :=
  (Tests.after s).map fun t => (t.faultCause, t.faultPc, t.faultInfo, t.pc)

open Sys2Proof.Tests

/-! ## Well-formedness: an ill-formed term for each check -/

theorem test_wellFormed_refuses_bad_dest : ¬ (Instr.set (.notReg 5) (.lit 1)).WellFormed := by decide
theorem test_wellFormed_refuses_bad_source : ¬ (Instr.add (.reg 0) (.lit 1) (.undef 40000)).WellFormed := by
  decide
theorem test_wellFormed_accepts : (Instr.set (.reg 3) (.reg 3)).WellFormed := by decide
theorem test_encodable_refuses_source : ¬ (Instr.push (.undef 32775)).Encodable := by decide
theorem test_encodable_refuses_dest : ¬ (Instr.pop (.notReg 32768)).Encodable := by decide
theorem test_encodable_accepts_illegal : (Instr.set (.notReg 32776) (.undef 32776)).Encodable := by decide

/-! ## Decoding: every row, from the encoding line of its rule -/

theorem test_decode_control : decode [0] = .ok (.halt, []) ∧ decode [21] = .ok (.noop, []) :=
  ⟨rfl, rfl⟩
theorem test_decode_moves :
    decode [1, 32768, 42] = .ok (.set (.reg 0) (.lit 42), [])
      ∧ decode [2, 32769] = .ok (.push (.reg 1), []) ∧ decode [3, 32770] = .ok (.pop (.reg 2), []) :=
  ⟨rfl, rfl, rfl⟩
theorem test_decode_compare :
    decode [4, 32768, 32769, 5] = .ok (.eq (.reg 0) (.reg 1) (.lit 5), [])
      ∧ decode [5, 32771, 10, 3] = .ok (.gt (.reg 3) (.lit 10) (.lit 3), []) :=
  ⟨rfl, rfl⟩
theorem test_decode_jump :
    decode [6, 100] = .ok (.jmp (.lit 100), [])
      ∧ decode [7, 32768, 3] = .ok (.jt (.reg 0) (.lit 3), [])
      ∧ decode [8, 0, 40] = .ok (.jf (.lit 0) (.lit 40), []) :=
  ⟨rfl, rfl, rfl⟩
theorem test_decode_alu :
    decode [9, 32768, 4, 5] = .ok (.add (.reg 0) (.lit 4) (.lit 5), [])
      ∧ decode [10, 32768, 300, 200] = .ok (.mult (.reg 0) (.lit 300) (.lit 200), [])
      ∧ decode [11, 32772, 32767, 1000] = .ok (.mod (.reg 4) (.lit 32767) (.lit 1000), [])
      ∧ decode [12, 32770, 12, 10] = .ok (.and (.reg 2) (.lit 12) (.lit 10), [])
      ∧ decode [13, 32771, 12, 10] = .ok (.or (.reg 3) (.lit 12) (.lit 10), [])
      ∧ decode [14, 32769, 32768] = .ok (.not (.reg 1) (.reg 0), []) :=
  ⟨rfl, rfl, rfl, rfl, rfl, rfl⟩
theorem test_decode_memory :
    decode [15, 32770, 10] = .ok (.rmem (.reg 2) (.lit 10), [])
      ∧ decode [16, 10, 19] = .ok (.wmem (.lit 10) (.lit 19), []) :=
  ⟨rfl, rfl⟩
theorem test_decode_call :
    decode [17, 8] = .ok (.call (.lit 8), []) ∧ decode [18] = .ok (.ret, []) :=
  ⟨rfl, rfl⟩
theorem test_decode_io :
    decode [19, 32768] = .ok (.out (.reg 0), []) ∧ decode [20, 32775] = .ok (.inp (.reg 7), []) :=
  ⟨rfl, rfl⟩
/-- R72, R101: an unknown opcode is rejected before its operands are missed. -/
theorem test_decode_rejects :
    decode [22] = .error (.unknownOpcode 22) ∧ decode [65535, 1] = .error (.unknownOpcode 65535)
      ∧ decode [9, 32768, 1] = .error (.truncated 3) ∧ decode [] = .error (.truncated 0) :=
  ⟨rfl, rfl, rfl, rfl⟩
theorem test_encode_words :
    encode (.add (.reg 0) (.lit 4) (.reg 7)) = [9, 32768, 4, 32775]
      ∧ encode (.wmem (.lit 32767) (.reg 1)) = [16, 32767, 32769] :=
  ⟨rfl, rfl⟩
/-- The bits of `add r0,4,5`, word 0 lowest, as the opcode table numbers them. -/
theorem test_decodeTableWord :
    decodeTableWord 64 (9 + 32768 * 65536 + 4 * 65536 ^ 2 + 5 * 65536 ^ 3)
        = some (.add (.reg 0) (.lit 4) (.lit 5))
      ∧ decodeTableWord 16 18 = some .ret ∧ decodeTableWord 16 22 = none :=
  ⟨rfl, rfl, rfl⟩
theorem test_withFetchWord_runs :
    (after (State.reset.withFetchWord 48 (1 + 32768 * 65536 + 42 * 65536 ^ 2))).map
        (fun t => (t.reg 0, t.pc)) = some (42, 3) := by decide

/-! ## Machine control and fetch -/

/-- V1. -/
theorem test_halt : (after (progAt 6 [0])).map (fun t => (t.runState, t.haltReason, t.pc))
    = some (.halted, some .haltInstr, 6) := by decide
/-- V2. -/
theorem test_noop : (after (progAt 10 [21])).map (fun t => t.pc) = some 11 := by decide
/-- V3, its second step. -/
theorem test_fetch_range : faultOf (progAt 32768 []) = some (some .fetchRange, 32768, 32768, 32768) := by
  decide +kernel
/-- V5. -/
theorem test_unknown_opcode : faultOf (prog [65535]) = some (some .unknownOpcode, 0, 65535, 0) := by decide
/-- V69: the third operand would be at 32768. -/
theorem test_fetch_range_operand :
    faultOf (progAt 32765 [9, 32768, 1]) = some (some .fetchRange, 32765, 32768, 32765) := by
  decide +kernel
/-- R236: no step in a final state. -/
theorem test_halted_has_no_step : after { prog [21] with runState := .halted } = none := by decide

/-! ## Moves -/

/-- V10. -/
theorem test_set : (after (prog [1, 32768, 42])).map (fun t => (t.reg 0, t.pc)) = some (42, 3) := by
  decide
/-- V14: both operands are bad, and the first is reported. -/
theorem test_set_first_fault : faultOf (prog [1, 5, 40000]) = some (some .badDest, 0, 5, 0) := by decide
/-- V15. -/
theorem test_push :
    (after ({ prog [2, 32769] with } |>.setReg 1 7)).map (fun t => (t.stack, t.pc)) = some ([7], 2) := by
  decide
/-- V16. -/
theorem test_push_full :
    (after { prog [2, 1] with stackCapacity := .entries 2 (by decide), stack := [4, 3] }).map
        (fun t => (t.faultCause, t.stack)) = some (some .stackOverflow, [4, 3]) := by decide
/-- V17. -/
theorem test_pop :
    (after { prog [3, 32770] with stack := [9, 5] }).map (fun t => (t.reg 2, t.stack, t.pc))
      = some (9, [5], 2) := by decide
/-- V19. -/
theorem test_pop_wide :
    (after { prog [3, 32768] with stack := [32768] }).map (fun t => (t.faultCause, t.faultInfo, t.stack))
      = some (some .wideValue, 32768, [32768]) := by decide

/-! ## Compare and jumps -/

/-- V35: source and destination are one register. -/
theorem test_eq_same_register :
    (after ((prog [4, 32768, 32768, 32768]).setReg 0 3)).map (fun t => t.reg 0) = some 1 := by decide
/-- V31. -/
theorem test_eq_different : (after (prog [4, 32768, 5, 6])).map (fun t => t.reg 0) = some 0 := by decide
/-- V32: no value is negative. -/
theorem test_gt_unsigned : (after (prog [5, 32768, 0, 32767])).map (fun t => t.reg 0) = some 0 := by decide
/-- V33. -/
theorem test_gt_top : (after (prog [5, 32768, 32767, 0])).map (fun t => t.reg 0) = some 1 := by decide
/-- V41. -/
theorem test_jmp_register : (after ((prog [6, 32771]).setReg 3 500)).map (fun t => t.pc) = some 500 := by
  decide
/-- V42 and V43. -/
theorem test_jt : (after (progAt 20 [7, 0, 99])).map (fun t => t.pc) = some 23
    ∧ (after (progAt 20 [7, 32767, 99])).map (fun t => t.pc) = some 99 := by decide
/-- V44 and V45. -/
theorem test_jf : (after (progAt 20 [8, 0, 99])).map (fun t => t.pc) = some 99
    ∧ (after (progAt 20 [8, 1, 99])).map (fun t => t.pc) = some 23 := by decide

/-! ## ALU -/

/-- V51. -/
theorem test_add_wraps : (after (prog [9, 32768, 32767, 32767])).map (fun t => t.reg 0) = some 32766 := by
  decide
/-- V52: the destination is both sources. -/
theorem test_add_doubles :
    (after ((prog [9, 32768, 32768, 32768]).setReg 0 20000)).map (fun t => t.reg 0) = some 7232 := by decide
/-- V53. -/
theorem test_mult_top : (after (prog [10, 32768, 32767, 32767])).map (fun t => t.reg 0) = some 1 := by decide
/-- V56. -/
theorem test_mult : (after (prog [10, 32768, 300, 200])).map (fun t => (t.reg 0, t.pc)) = some (27232, 4) := by
  decide
/-- V57. -/
theorem test_mod : (after (prog [11, 32768, 32767, 1000])).map (fun t => t.reg 0) = some 767 := by decide
/-- V61. -/
theorem test_mod_zero : faultOf (prog [11, 32768, 7, 32769]) = some (some .divZero, 0, 0, 0) := by decide
/-- V62 and V63. -/
theorem test_and : (after (prog [12, 32768, 12, 10])).map (fun t => t.reg 0) = some 8
    ∧ (after (prog [12, 32768, 21845, 10922])).map (fun t => t.reg 0) = some 0 := by decide
/-- V64 and V65. -/
theorem test_or : (after (prog [13, 32768, 12, 10])).map (fun t => t.reg 0) = some 14
    ∧ (after (prog [13, 32768, 21845, 10922])).map (fun t => t.reg 0) = some 32767 := by decide
/-- V66 and V68. -/
theorem test_not : (after (prog [14, 32768, 0])).map (fun t => t.reg 0) = some 32767
    ∧ (after (prog [14, 32768, 21845])).map (fun t => t.reg 0) = some 10922 := by decide

/-! ## Memory, call and return -/

/-- V70. -/
theorem test_rmem :
    (after { prog [15, 32770, 10] with mem := [(0, 15), (1, 32770), (2, 10), (10, 19)] }).map
        (fun t => (t.reg 2, t.pc)) = some (19, 3) := by decide
/-- V71. -/
theorem test_rmem_wide : faultOf (prog [15, 32768, 1]) = some (some .wideValue, 0, 32768, 0) := by decide
/-- V73, its first step; V74's other cells are kept. -/
theorem test_wmem : (after (prog [16, 100, 12345])).map (fun t => (t.mem, t.pc))
    = some ([(0, 16), (1, 100), (2, 12345), (100, 12345)], 3) := by decide
/-- Writing what an unlisted cell holds removes the entry (log entry 2). -/
theorem test_wmem_zero : (after (prog [16, 1, 0])).map (fun t => (t.mem.read 1, Memory.wf t.mem))
    = some (0, true) := by decide
/-- V80. -/
theorem test_call : (after { progAt 2 [17, 8] with stack := [7] }).map (fun t => (t.stack, t.pc))
    = some ([4, 7], 8) := by decide
/-- V81. -/
theorem test_call_at_top : (after (progAt 32766 [17, 100])).map (fun t => (t.stack, t.pc))
    = some ([32768], 100) := by decide +kernel
/-- V82, its first step. -/
theorem test_ret : (after { prog [18] with stack := [32768] }).map (fun t => (t.pc, t.stack, t.runState))
    = some (32768, [], .running) := by decide
/-- V83. -/
theorem test_ret_empty : (after (prog [18])).map (fun t => (t.runState, t.haltReason, t.pc))
    = some (.halted, some .retEmpty, 0) := by decide

/-! ## Character I/O and the host interface -/

/-- V90. -/
theorem test_out : (after (prog [19, 65])).map (fun t => (t.output, t.pc)) = some ([65], 2) := by decide
/-- V91. -/
theorem test_in : (after (prog [20, 32770])).map (fun t => (t.runState, t.pc, t.inDest))
    = some (.waitInput, 0, 2) := by decide
/-- V94: no wait happens. -/
theorem test_in_bad_dest : faultOf (prog [20, 3]) = some (some .badDest, 0, 3, 0) := by decide

/-- V91's end, with what the host does next. -/
def Sys2Proof.Tests.waiting (ops : List HostOp) : State :=
  { prog [20, 32770] with runState := .waitInput, inDest := 2, hostOps := ops }

/-- V92. -/
theorem test_deliver : (after (waiting [.deliver 65])).map (fun t => (t.reg 2, t.pc, t.runState))
    = some (65, 2, .running) := by decide
/-- V93. -/
theorem test_deliver_wide : faultOf (waiting [.deliver 70000]) = some (some .wideValue, 0, 4464, 0) := by
  decide
/-- W3. -/
theorem test_reg7 : (after (waiting [.writeReg7 (some 42)])).map (fun t => (t.reg 7, t.pc, t.runState))
    = some (42, 0, .waitInput) := by decide
/-- V95. -/
theorem test_reg7_refused : (after (waiting [.writeReg7 (some 40000)])).map (fun t => (t.x, t.replies))
    = some (State.reset.x, [.reg7Refused]) := by decide
/-- R253, U3: a missing snapshot is refused, and the core waits on. -/
theorem test_restore_missing : (after (waiting [.restore none])).map (fun t => (t.runState, t.replies))
    = some (.waitInput, [.persistenceError]) := by decide
/-- R253: a snapshot with seven registers is not valid. -/
theorem test_restore_short_registers :
    (Snapshot.mk 0 [0, 0, 0, 0, 0, 0, 0] [] []).valid .unbounded = false := by decide
/-- R29: FAULTED is 3, UNKNOWN_OPCODE is 1; HALTED is 2, RET_EMPTY is 2. -/
theorem test_status_word :
    (after (prog [22])).map State.statusWord = some 0x13
      ∧ (after (prog [18])).map State.statusWord = some 0x0A := by decide
/-- R51, W1's first two words: 9 and 32768, low byte first. -/
theorem test_load_bytes : cellsOfBytes [9, 0, 0, 128] = [9, 32768] := by decide
/-- R271. -/
theorem test_load_odd : loadImage .unbounded (some [1]) = .error .oddLength
    ∧ loadImage .unbounded none = .error .missing := ⟨rfl, rfl⟩
/-- W10. -/
theorem test_listing : (listing (Memory.ofCells 0 [9, 32768, 4, 5, 19, 32768, 0, 0])).take 4
    = [.instr 0 "add" [32768, 4, 5], .instr 4 "out" [32768], .instr 6 "halt" [], .instr 7 "halt" []] := rfl
/-- R90, R271: the operand words after the image's last word are the cells that the load made 0. -/
theorem test_listing_short_image : (imageListing (some [22, 0, 9, 0, 0, 128])).map (List.take 3)
    = .ok [.data 0 22, .instr 1 "add" [32768, 0, 0], .instr 5 "halt" []] := rfl
/-- R90: an instruction that would pass address 32767 is printed word by word, opcodes among them. -/
theorem test_listing_past_end : listFrom (Memory.ofCells 32765 [22, 9, 21]) 9 32765
    = [.data 32765 22, .data 32766 9, .data 32767 21] := by decide +kernel
/-- W10's first line as text. -/
theorem test_listing_text : (ListLine.instr 0 "add" [32768, 4, 5]).render = "0: add 32768 4 5" := by
  decide +kernel

/-! ## A witness for the hypotheses of each statement, and for each clause at a boundary -/

/-- A state whose registers, stack and memory all hold something, RUNNING at a `noop`. -/
def Sys2Proof.Tests.busy : State :=
  { (prog [21]).setReg 1 32767 with stack := [9, 32768], stackCapacity := .entries 3 (by decide), output := [7] }

theorem witness_DecodeOfEncode : (Instr.set (.notReg 32767) (.undef 32776)).Encodable
    ∧ (Instr.set (.reg 7) (.lit 32767)).Encodable := by decide
theorem witness_EncodeOfDecode : decode [16, 10, 19, 0] = .ok (.wmem (.lit 10) (.lit 19), [0]) := rfl
theorem witness_OpcodeWordSelects_known : (21 : Cell).toNat ≤ 21 ∧ 3 ≤ [(0 : Cell), 0, 0].length := by decide
theorem witness_OpcodeWordSelects_unknown : 21 < (22 : Cell).toNat := by decide
theorem witness_OpcodeWordSelects_step : (progAt 32767 [22]).runState = .running
    ∧ (progAt 32767 [22]).pc.toNat ≤ 32767
    ∧ 21 < ((progAt 32767 [22]).mem.read (progAt 32767 [22]).pc.toNat).toNat := by decide +kernel
theorem witness_LengthFromFirstWord : decode [9, 32768, 4, 5, 19] = .ok (.add (.reg 0) (.lit 4) (.lit 5), [19]) :=
  rfl
theorem witness_ResolveByRange_literal : (32767 : Cell).toNat ≤ 32767 := by decide
theorem witness_ResolveByRange_register : (32768 : Cell).toNat = 32768 + (0 : RegIdx).val
    ∧ (32775 : Cell).toNat = 32768 + (7 : RegIdx).val := by decide
theorem witness_ResolveByRange_undefined : 32776 ≤ (32776 : Cell).toNat := by decide +kernel
theorem witness_DestIdxByRange_register : (32768 : Cell).toNat = 32768 + (0 : RegIdx).val
    ∧ (32775 : Cell).toNat = 32768 + (7 : RegIdx).val := by decide
theorem witness_DestIdxByRange_other : ((32767 : Cell).toNat ≤ 32767 ∨ 32776 ≤ (32767 : Cell).toNat)
    ∧ ((32776 : Cell).toNat ≤ 32767 ∨ 32776 ≤ (32776 : Cell).toNat) := by decide +kernel
theorem witness_StepRunsDecoded : busy.runState = .running
    ∧ decode busy.fetched = .ok (.noop, [0, 0, 0]) := ⟨rfl, rfl⟩
theorem witness_StepRunsWordsInMemory : (progAt 32766 [6, 100]).runState = .running
    ∧ (Instr.jmp (.lit 100)).Encodable
    ∧ (progAt 32766 [6, 100]).pc.toNat + (encode (.jmp (.lit 100))).length ≤ 32768
    ∧ ∀ k, k < (encode (.jmp (.lit 100))).length → (encode (.jmp (.lit 100)))[k]?
        = some ((progAt 32766 [6, 100]).mem.read ((progAt 32766 [6, 100]).pc.toNat + k)) := by
  decide +kernel
theorem witness_FetchBeyondMemoryFaults_opcode : (progAt 32768 []).runState = .running
    ∧ 32768 ≤ (progAt 32768 []).pc.toNat := by decide +kernel
theorem witness_FetchBeyondMemoryFaults_operand : (progAt 32765 [9, 32768, 1]).runState = .running
    ∧ (progAt 32765 [9, 32768, 1]).pc.toNat < 32768
    ∧ arityOf ((progAt 32765 [9, 32768, 1]).mem.read (progAt 32765 [9, 32768, 1]).pc.toNat) = some 3
    ∧ 32768 ≤ (progAt 32765 [9, 32768, 1]).pc.toNat + 3 := by decide +kernel
theorem witness_LeftmostOperandFaultWins :
    illegalOperands (.set (.notReg 5) (.undef 40000)) = [(.badDest, 5), (.badOperand, 40000)] := rfl
theorem witness_FaultsArePrecise : (prog [22]).runState = .running
    ∧ ∃ t, step (prog [22]) = .next t ∧ t.runState = .faulted := ⟨rfl, _, rfl, rfl⟩
theorem witness_EveryInstructionAnswers : busy.runState = .running := rfl
theorem witness_NoStepOutsideRunning_final :
    let s := { busy with runState := .halted, hostOps := [.readStatus] }
    s.Ended ∧ s.hostOps = .readStatus :: [] ∧ ∃ t, step s = .next t :=
  ⟨.inl rfl, rfl, _, rfl⟩
theorem witness_NoStepOutsideRunning_stuck : (waiting []).Stuck := by decide
/-- The operands of every statement about a register or literal source. -/
theorem witness_resolved_operands : busy.resolve (.lit 32767) = .ok 32767
    ∧ busy.resolve (.reg 1) = .ok 32767 ∧ busy.resolve (.lit 0) = .ok 0 := ⟨rfl, rfl, rfl⟩
theorem witness_SetCopiesValue : busy.resolve (.reg 1) = .ok 32767 := rfl
theorem witness_PushGoesOnTop_room : busy.resolve (.reg 1) = .ok 32767
    ∧ StackCapacity.limit busy.stackCapacity ≠ some busy.stack.length := ⟨rfl, by decide⟩
theorem witness_PushGoesOnTop_full : busy.resolve (.reg 1) = .ok 32767
    ∧ StackCapacity.limit { busy with stackCapacity := .entries 2 (by decide) }.stackCapacity
      = some busy.stack.length := ⟨rfl, rfl⟩
theorem witness_PopTakesTop : State.reset.stack = [] ∧ busy.stack = 9 :: [32768]
    ∧ (9 : Cell).toNat ≤ 32767 := ⟨rfl, rfl, by decide⟩
theorem witness_PopTakesTop_wide : { busy with stack := [32768] }.stack = 32768 :: []
    ∧ 32767 < (32768 : Cell).toNat := ⟨rfl, by decide +kernel⟩
theorem witness_PushThenPop : busy.resolve (.reg 1) = .ok 32767 ∧ busy.stackFull = false := ⟨rfl, rfl⟩
theorem witness_EqWritesZeroOrOne : busy.resolve (.reg 1) = .ok 32767 ∧ busy.resolve (.lit 32767) = .ok 32767 :=
  ⟨rfl, rfl⟩
theorem witness_GtWritesZeroOrOne : busy.resolve (.lit 0) = .ok 0 ∧ busy.resolve (.lit 32767) = .ok 32767 :=
  ⟨rfl, rfl⟩
theorem witness_JmpGoesToTarget : busy.resolve (.lit 32767) = .ok 32767 := rfl
theorem witness_ConditionalJumps : busy.resolve (.lit 0) = .ok 0 ∧ (0 : Word).toNat = 0
    ∧ busy.resolve (.reg 1) = .ok 32767 ∧ (32767 : Word).toNat ≠ 0 := ⟨rfl, rfl, rfl, by decide⟩
theorem witness_AddWraps : busy.resolve (.reg 1) = .ok 32767 ∧ busy.resolve (.lit 1) = .ok 1 := ⟨rfl, rfl⟩
theorem witness_MultWraps : busy.resolve (.reg 1) = .ok 32767 ∧ busy.resolve (.reg 1) = .ok 32767 :=
  ⟨rfl, rfl⟩
theorem witness_ModIsRemainder_zero : busy.resolve (.lit 7) = .ok 7 ∧ busy.resolve (.reg 0) = .ok 0
    ∧ (0 : Word).toNat = 0 := ⟨rfl, rfl, rfl⟩
theorem witness_ModIsRemainder : busy.resolve (.reg 1) = .ok 32767 ∧ busy.resolve (.lit 1) = .ok 1
    ∧ (1 : Word).toNat ≠ 0 := ⟨rfl, rfl, by decide⟩
theorem witness_AndOrActBitByBit : busy.resolve (.reg 1) = .ok 32767 ∧ busy.resolve (.lit 10922) = .ok 10922 :=
  ⟨rfl, rfl⟩
theorem witness_NotComplements : busy.resolve (.reg 1) = .ok 32767 := rfl
theorem witness_RmemReadsCell : busy.resolve (.lit 0) = .ok 0
    ∧ (busy.mem.read (0 : Word).toNat).toNat ≤ 32767 := ⟨rfl, by decide⟩
theorem witness_RmemReadsCell_wide : (prog [15, 32768, 1]).resolve (.lit 1) = .ok 1
    ∧ 32767 < ((prog [15, 32768, 1]).mem.read (1 : Word).toNat).toNat := ⟨rfl, by decide +kernel⟩
theorem witness_WmemWritesCell : busy.MemWf ∧ busy.resolve (.reg 1) = .ok 32767
    ∧ busy.resolve (.lit 0) = .ok 0 := ⟨by decide, rfl, rfl⟩
theorem witness_CallPushesReturnAddress_room : busy.resolve (.lit 8) = .ok 8
    ∧ StackCapacity.limit busy.stackCapacity ≠ some busy.stack.length := ⟨rfl, by decide⟩
theorem witness_CallPushesReturnAddress_full : busy.resolve (.lit 8) = .ok 8
    ∧ StackCapacity.limit { busy with stackCapacity := .entries 2 (by decide) }.stackCapacity
      = some busy.stack.length := ⟨rfl, rfl⟩
theorem witness_RetReturnsOrHalts : State.reset.stack = [] ∧ busy.stack = 9 :: [32768] := ⟨rfl, rfl⟩
theorem witness_CallThenRet : busy.resolve (.lit 8) = .ok 8 ∧ busy.stackFull = false := ⟨rfl, rfl⟩
theorem witness_OutEmitsValue : busy.resolve (.reg 1) = .ok 32767 := rfl
theorem witness_DeliverCompletesIn : 32767 ≤ 32767 ∧ 32767 < 32768 := by decide
theorem witness_InThenDeliver :
    let s := { prog [20, 32770] with hostOps := [.deliver 32767] }
    s.runState = .running ∧ decode s.fetched = .ok (.inp (.reg 2), [0, 0])
      ∧ s.hostOps = .deliver 32767 :: [] ∧ 32767 ≤ 32767 := ⟨rfl, rfl, rfl, by decide⟩
theorem witness_WaitEndsOnlyByHost : (waiting [.snapshot]).runState = .waitInput
    ∧ ∃ t, step (waiting [.snapshot]) = .next t := ⟨rfl, _, rfl⟩
theorem witness_SnapshotIsValid : busy.Inv :=
  ⟨by decide, by simp [State.StackInRange, busy], by decide, by decide, by decide, by decide⟩
theorem witness_RestoreReplacesOrRefuses_invalid :
    ¬ SnapshotInRange (Snapshot.mk 32769 [] [] []) busy.stackCapacity :=
  fun h => absurd h.1 (by decide)
/-- A ninth register. -/
theorem witness_RestoreReplacesOrRefuses_nine :
    ¬ SnapshotInRange (Snapshot.mk 0 [0, 0, 0, 0, 0, 0, 0, 0, 0] [] []) busy.stackCapacity :=
  fun h => absurd h.2.1.1 (by decide)
/-- A snapshot with every field at the top of its range. -/
theorem witness_RestoreReplacesOrRefuses_valid :
    SnapshotInRange (Snapshot.mk 32768 (List.replicate 8 32767) [32768, 0, 0]
      (List.replicate 32768 65535)) busy.stackCapacity :=
  ⟨Nat.le_refl _, ⟨List.length_replicate, fun _ hv => Nat.le_of_eq (List.eq_of_mem_replicate hv)⟩,
    by simp, fun _ hn => by cases hn; exact Nat.le_refl _, List.length_replicate,
    fun _ hv => Nat.le_of_eq (List.eq_of_mem_replicate hv)⟩
theorem witness_SnapshotRestoreRoundTrip : (waiting []).Inv ∧ (waiting []).runState = .waitInput :=
  ⟨⟨by decide, by simp [State.StackInRange, waiting, prog, progAt, State.reset], by decide, by decide,
    by decide, by decide⟩, rfl⟩
theorem witness_WriteReg7WritesOrRefuses : (0 : Int) ≤ 0 ∧ (32767 : Int) ≤ 32767
    ∧ (-1 : Int) < 0 ∧ (32767 : Int) < 32768 := by decide
theorem witness_HostTurnTakesNextOperation : (waiting [.deliver 65]).runState = .waitInput
    ∧ (waiting [.deliver 65]).hostOps = .deliver 65 :: [] := ⟨rfl, rfl⟩
theorem witness_LoadFillsMemory : ([9, 0, 0, 128] : List Byte).length % 2 = 0
    ∧ ([9, 0, 0, 128] : List Byte)[2 * 1]? = some 0 ∧ ([9, 0, 0, 128] : List Byte)[2 * 1 + 1]? = some 128
    ∧ ([9] : List Byte).length % 2 = 1 := by decide
/-- The longest image, and one a word longer. -/
theorem witness_LoadFillsMemory_longest : (List.replicate 65536 (0 : Byte)).length % 2 = 0
    ∧ (List.replicate 65536 (0 : Byte)).length ≤ 65536
    ∧ 65536 < (List.replicate 65538 (0 : Byte)).length := by
  rw [List.length_replicate, List.length_replicate]
  decide
theorem witness_LoadedStateMeetsInvariant : ∃ s, loadImage (.entries 1 (by decide)) (some [9, 0]) = .ok s := ⟨_, rfl⟩
theorem witness_StepKeepsInvariant : busy.Inv ∧ ∃ t, step busy = .next t :=
  ⟨witness_SnapshotIsValid, _, rfl⟩
theorem witness_StepKeepsMemoryCanonical : busy.MemWf ∧ ∃ t, step busy = .next t := ⟨by decide, _, rfl⟩
theorem witness_OnlyDestinationIsWritten :
    ∃ t, exec (.set (.reg 3) (.lit 5)) busy = .next t ∧ t.reg 3 ≠ busy.reg 3 := ⟨_, rfl, by decide⟩
theorem witness_OnlyWmemAndRestoreWriteMemory :
    ∃ t, step (prog [16, 100, 5]) = .next t ∧ t.mem ≠ (prog [16, 100, 5]).mem := ⟨_, rfl, by decide⟩
theorem witness_PcChangesOnlyAsListed : ∃ t, exec (.jmp (.lit 32767)) busy = .next t := ⟨_, rfl⟩
/-- A step that runs an instruction, and one that raises a fault of the fetch. -/
theorem witness_PcChangesOnlyAsListed_step : busy.runState = .running ∧ (∃ t, step busy = .next t)
    ∧ (prog [22]).runState = .running ∧ ∃ t, step (prog [22]) = .next t :=
  ⟨rfl, ⟨_, rfl⟩, rfl, _, rfl⟩
theorem witness_PcChangesOnlyAsListed_host : (waiting [.deliver 32767]).runState ≠ .running
    ∧ ∃ t, step (waiting [.deliver 32767]) = .next t ∧ t.pc ≠ (waiting [.deliver 32767]).pc :=
  ⟨by decide, _, rfl, by decide⟩
theorem witness_OnlyHaltAndEmptyRetHalt : State.reset.runState = .running
    ∧ ∃ t, exec .ret State.reset = .next t ∧ t.runState = .halted := ⟨rfl, _, rfl, rfl⟩
theorem witness_WmemSeenByNextFetch : busy.MemWf ∧ busy.resolve (.lit 3) = .ok 3
    ∧ busy.resolve (.lit 19) = .ok 19 ∧ 3 < 4 ∧ (0 : Cell).toNat + 3 = (3 : Word).toNat :=
  ⟨by decide, rfl, rfl, by decide, by decide⟩
theorem witness_CoreStepIgnoresHost : busy.runState = .running ∧ ∃ t, step busy = .next t := ⟨rfl, _, rfl⟩
theorem witness_ListingLinesMatchMemory : .instr 0 "halt" [] ∈ listFrom [] 1 0 := by decide
/-- A `>>` line that is no opcode, and one whose instruction would pass the end. -/
theorem witness_ListingLinesMatchMemory_data : .data 0 22 ∈ listFrom [(0, 22)] 1 0
    ∧ .data 32767 6 ∈ listFrom [(32767, 6)] 1 32767 := by decide +kernel
end

section
/-!
PROOFS. What the decoder accepts is the encoding of the instruction it answers, and what that says
about the cells at the pc of a state whose fetch decodes.
-/

namespace Sys2Proof

theorem takeF0_words {op : Cell} {j i : Instr} {ws rest : List Cell} (hj : encode j = [op])
    (h : takeF0 j ws = .ok (i, rest)) : op :: ws = encode i ++ rest := by
  cases h
  rw [hj]
  rfl

theorem takeF1_words {op : Cell} {f : Cell → Instr} {i : Instr} {ws rest : List Cell}
    (hf : ∀ w, encode (f w) = [op, w]) (h : takeF1 f ws = .ok (i, rest)) :
    op :: ws = encode i ++ rest := by
  obtain ⟨w, rfl, rfl⟩ := takeF1_ok h
  rw [hf]
  rfl

theorem takeF2_words {op : Cell} {f : Cell → Cell → Instr} {i : Instr} {ws rest : List Cell}
    (hf : ∀ w1 w2, encode (f w1 w2) = [op, w1, w2]) (h : takeF2 f ws = .ok (i, rest)) :
    op :: ws = encode i ++ rest := by
  obtain ⟨w1, w2, rfl, rfl⟩ := takeF2_ok h
  rw [hf]
  rfl

theorem takeF3_words {op : Cell} {f : Cell → Cell → Cell → Instr} {i : Instr} {ws rest : List Cell}
    (hf : ∀ w1 w2 w3, encode (f w1 w2 w3) = [op, w1, w2, w3]) (h : takeF3 f ws = .ok (i, rest)) :
    op :: ws = encode i ++ rest := by
  obtain ⟨w1, w2, w3, rfl, rfl⟩ := takeF3_ok h
  rw [hf]
  rfl

/-- Whatever the decoder accepts is the encoding of its answer: one case per row of the opcode
table, each by the law of its format. -/
theorem decodeOp_words {op : Cell} {i : Instr} {ws rest : List Cell}
    (h : decodeOp op ws = .ok (i, rest)) : op :: ws = encode i ++ rest := by
  unfold decodeOp at h
  split at h
  case h_23 => cases h
  all_goals
    rename_i hop
    obtain rfl := (BitVec.toNat_eq_nat.mp hop).2
  case h_1 | h_19 | h_22 => exact takeF0_words rfl h
  case h_3 | h_4 | h_7 | h_18 | h_20 | h_21 =>
    exact takeF1_words (fun _ => by simp [encode, Src.toCell_ofCell, Dest.toCell_ofCell]) h
  case h_2 | h_8 | h_9 | h_15 | h_16 | h_17 =>
    exact takeF2_words
      (fun _ _ => by simp [encode, ds, ss, Src.toCell_ofCell, Dest.toCell_ofCell]) h
  case h_5 | h_6 | h_10 | h_11 | h_12 | h_13 | h_14 =>
    exact takeF3_words
      (fun _ _ _ => by simp [encode, dss, Src.toCell_ofCell, Dest.toCell_ofCell]) h

theorem decode_words {i : Instr} {ws rest : List Cell} (h : decode ws = .ok (i, rest)) :
    ws = encode i ++ rest := by
  cases ws with
  | nil => cases h
  | cons op ws => exact decodeOp_words h

theorem length_encode (i : Instr) : (encode i).length = 1 + i.arity := by
  cases i <;> rfl

end Sys2Proof
end

section
/-!
PROOFS. What a decoded fetch says about the state, and one transition of the machine sorted by who
acts: `HostEffect` sorts the host's operations as `Effect` sorts the core's instructions, and
`step_effect` joins the two.
-/

namespace Sys2Proof.Machine

/-- The words of a fetched instruction lie inside memory (R101). -/
theorem fetched_fits {s : State} {i : Instr} {rest : List Cell}
    (h : decode s.fetched = .ok (i, rest)) : s.pc.toNat + (1 + i.arity) ≤ 32768 := by
  have hlen := congrArg List.length (decode_words h)
  rw [State.fetched, Memory.length_fetchCells, Config.memWords_eq, List.length_append,
    length_encode] at hlen
  omega

/-- Memory holds the words of a fetched instruction from the pc on (R102). -/
theorem read_of_fetched {s : State} {i : Instr} {rest : List Cell} {k : Nat}
    (h : decode s.fetched = .ok (i, rest)) (hk : k < (encode i).length) :
    s.mem.read (s.pc.toNat + k) = (encode i)[k] := by
  have hfit := fetched_fits h
  have hlen := congrArg List.length (decode_words h)
  rw [State.fetched, Memory.length_fetchCells, List.length_append] at hlen
  have hcell := Memory.getElem?_fetchCells s.mem (n := Config.maxInstrWords) (a := s.pc.toNat)
    (k := k) (by omega) (by rw [length_encode] at hk; rw [Config.memWords_eq]; omega)
  rw [← State.fetched, decode_words h, List.getElem?_append_left hk, List.getElem?_eq_getElem hk]
    at hcell
  exact (Option.some.inj hcell).symm

theorem State.toNat_next {s : State} {n : Nat} (h : s.pc.toNat + n ≤ 32768) :
    (s.next n).toNat = s.pc.toNat + n := by
  rw [State.next, BitVec.toNat_add, BitVec.toNat_ofNat]
  omega

/-- The model's check of a snapshot is `Valid(s)` in R253's numbers. -/
theorem Snapshot.valid_iff_inRange {p : Snapshot} {cap : StackCapacity} :
    p.valid cap = true ↔ SnapshotInRange p cap := by
  simp [Snapshot.valid, SnapshotInRange, StackCapacity.fits_iff, and_assoc]

/-- The effects of a host operation that is enabled in `s` (R250). -/
inductive HostEffect (s : State) : HostOp → State → Prop where
  /-- A code point above 32767 faults (R213). -/
  | deliverWide (c : Nat) (w : Cell) (hw : s.runState = .waitInput) :
      HostEffect s (.deliver c) (s.raiseFault .wideValue w)
  /-- A delivery completes the waiting `in` (R213). -/
  | delivered (c : Nat) (hw : s.runState = .waitInput) (hc : c ≤ 32767) :
      HostEffect s (.deliver c)
        { (s.setReg s.inDest (BitVec.ofNat 15 c)).advance 2 with runState := .running }
  /-- A valid snapshot is restored (R253). -/
  | restored (p : Snapshot) (hw : s.runState = .waitInput)
      (hp : SnapshotInRange p s.stackCapacity) :
      HostEffect s (.restore (some p)) ((s.restoreFrom p).reply .restored)
  /-- Register 7 is written (R254). -/
  | reg7Written (v : Option Int) (n : Int) (hw : s.runState = .waitInput) :
      HostEffect s (.writeReg7 v) ((s.writeReg7 n).reply .reg7Written)
  /-- Only a report is made: a snapshot, a status read or a refusal (R252, R256). -/
  | reported (op : HostOp) (r : HostReply) : HostEffect s op (s.reply r)

theorem performOp_effect {s : State} {op : HostOp} (h : op.enabled s.runState = true) :
    HostEffect s op (performOp s op) := by
  cases op with
  | deliver c =>
    have hw : s.runState = .waitInput := of_decide_eq_true h
    simp only [performOp, State.deliver]
    split
    · exact .deliverWide c _ hw
    · exact .delivered c hw (Nat.not_lt.mp ‹_›)
  | snapshot => exact .reported _ _
  | restore p =>
    obtain ⟨q, rfl, hq, heq⟩ | heq := performOp_restore_cases s p
    · rw [heq]
      exact .restored q (of_decide_eq_true h) (Snapshot.valid_iff_inRange.mp hq)
    · rw [heq]
      exact .reported _ _
  | writeReg7 v =>
    obtain ⟨n, heq⟩ | heq := performOp_writeReg7_cases s v
    · rw [heq]
      exact .reg7Written v n (of_decide_eq_true h)
    · rw [heq]
      exact .reported _ _
  | readStatus => exact .reported _ _

/-- Everything one transition of the machine can do, with who acts. -/
inductive StepEffect (s : State) : State → Prop where
  /-- The core's fetch or decode faults (R72, R101). -/
  | fetchFault (c : FaultCause) (w : Cell) (hr : s.runState = .running) :
      StepEffect s (s.raiseFault c w)
  /-- The core runs the instruction it fetched (R102). -/
  | instr {t : State} (i : Instr) (rest : List Cell) (hr : s.runState = .running)
      (hd : decode s.fetched = .ok (i, rest)) (he : Effect i s t) : StepEffect s t
  /-- The host's next operation is performed (R250, log entry 5). -/
  | host {t : State} (op : HostOp) (rest : List HostOp) (hr : s.runState ≠ .running)
      (hq : s.hostOps = op :: rest) (he : HostEffect { s with hostOps := rest } op t) :
      StepEffect s t

theorem step_effect {s t : State} (h : step s = .next t) : StepEffect s t := by
  by_cases hr : s.runState = .running
  · rw [step_of_running hr] at h
    obtain ⟨c, w, rfl⟩ | ⟨i, rest, hd, hx⟩ := coreStep_next h
    · exact .fetchFault c w hr
    · exact .instr i rest hr hd (exec_effect hx)
  · rw [step_of_not_running hr] at h
    obtain ⟨op, rest, hq, hen, rfl⟩ := hostTurn_next h
    exact .host op rest hr hq (performOp_effect hen)

end Sys2Proof.Machine
end

section
/-!
PROOFS. What each effect does to one part of the state: registers, memory, stack, pc and status. The
statements of the family 10_state follow from these and never split the instructions again.
-/

namespace Sys2Proof.Machine

variable {i : Instr} {s t : State}

theorem Effect.stackCapacity_eq (h : Effect i s t) : t.stackCapacity = s.stackCapacity := by
  cases h <;> rfl

/-! ## Registers -/

/-- A register that an instruction changes is its destination. -/
theorem Effect.dests_of_reg_ne {r : RegIdx} (h : Effect i s t) (hne : t.reg r ≠ s.reg r) :
    i.dests = [.reg r] ∧ ∀ d, i ≠ .inp d := by
  cases h with
  | regWrite q v hd hi =>
    have hrq : r = q := by
      by_contra hrq
      exact hne (State.reg_setReg_of_ne s v hrq)
    exact ⟨hrq ▸ hd, hi⟩
  | popReg q v top rest hi =>
    have hrq : r = q := by
      by_contra hrq
      exact hne (State.reg_setReg_of_ne _ v hrq)
    subst hi
    exact ⟨hrq ▸ rfl, fun _ => Instr.noConfusion⟩
  | fault | store | pushWord | callTo | jumpTo | advance | retTo | retHalt | haltNow | emit
  | wait =>
    exact absurd rfl hne

/-! ## Memory -/

/-- An instruction leaves memory alone or is a `wmem` that writes one cell. -/
theorem Effect.mem_cases (h : Effect i s t) :
    t.mem = s.mem ∨ ∃ a b va c, i = .wmem a b ∧ t = (s.writeCell va c).advance (1 + i.arity) := by
  cases h with
  | store a b va vb hi => exact .inr ⟨a, b, va, _, hi, rfl⟩
  | fault | regWrite | popReg | pushWord | callTo | jumpTo | advance | retTo | retHalt | haltNow
  | emit | wait => exact .inl rfl

theorem HostEffect.mem_cases {op : HostOp} (h : HostEffect s op t) :
    t.mem = s.mem ∨ ∃ p, op = .restore (some p) ∧ s.runState = .waitInput
      ∧ SnapshotInRange p s.stackCapacity ∧ t.mem = (s.restoreFrom p).mem := by
  cases h with
  | restored p hw hp => exact .inr ⟨p, rfl, hw, hp, rfl⟩
  | deliverWide | delivered | reg7Written | reported => exact .inl rfl

theorem State.writeCell_memWf (a : Word) (c : Cell) (h : s.MemWf) : (s.writeCell a c).MemWf :=
  Memory.write_wf c h a.isLt

theorem State.restoreFrom_memWf {p : Snapshot} {cap : StackCapacity} (h : SnapshotInRange p cap) :
    (s.restoreFrom p).MemWf := by
  obtain ⟨-, -, -, -, hlen, -⟩ := h
  exact Memory.ofCells_wf (by simp [hlen, Config.memWords_eq])

theorem Effect.memWf (h : Effect i s t) (hm : s.MemWf) : t.MemWf := by
  obtain heq | ⟨a, b, va, c, -, rfl⟩ := h.mem_cases
  · rwa [State.MemWf, heq]
  · exact State.writeCell_memWf va c hm

theorem HostEffect.memWf {op : HostOp} (h : HostEffect s op t) (hm : s.MemWf) : t.MemWf := by
  obtain heq | ⟨p, -, -, hp, heq⟩ := h.mem_cases
  · rwa [State.MemWf, heq]
  · rw [State.MemWf, heq]
    exact State.restoreFrom_memWf hp

/-! ## The pc -/

/-- A raised fault is the taken fault of R232. -/
theorem faultTaken_raiseFault (s : State) (c : FaultCause) (w : Cell) :
    FaultTaken c w.toNat s (s.raiseFault c w) := by
  simp [FaultTaken, RegsKept, MemKept, LatchAndHostKept]

/-- An instruction with a destination, other than `in`, transfers no control (R105). -/
theorem transfersNoControl_of_dests {d : Dest} (hd : i.dests = [d]) (hi : ∀ d, i ≠ .inp d) :
    TransfersNoControl i s := by
  cases i with
  | halt | push | jmp | jt | jf | wmem | call | ret | out | noop => cases hd
  | inp d => exact absurd rfl (hi d)
  | set | pop | eq | gt | add | mult | mod | and | or | not | rmem => trivial

/-- Every effect moves the pc in one of the ways of R25. -/
theorem Effect.pcMoves (h : Effect i s t) : PcMovesAsListed i s t := by
  cases h with
  | fault c w => exact .inl ⟨.inl ⟨c, _, faultTaken_raiseFault s c w⟩, rfl⟩
  | haltNow hi => exact .inl ⟨.inr (.inl hi), rfl⟩
  | retHalt hi hs => exact .inl ⟨.inr (.inr (.inl ⟨hi, hs⟩)), rfl⟩
  | wait r hi => exact .inl ⟨.inr (.inr (.inr ⟨r, hi⟩)), rfl⟩
  | regWrite r v hd hi => exact .inr (.inl ⟨transfersNoControl_of_dests hd hi, rfl⟩)
  | popReg r v top rest hi | store _ _ _ _ hi | pushWord _ _ hi | emit _ _ hi =>
    subst hi
    exact .inr (.inl ⟨trivial, rfl⟩)
  | advance hi =>
    refine .inr (.inl ⟨?_, rfl⟩)
    obtain rfl | ⟨c, a, v, rfl, hv⟩ | ⟨c, a, v, rfl, hv⟩ := hi
    · trivial
    · exact ⟨v, hv⟩
    · exact ⟨v, hv⟩
  | callTo a va hi _ ha =>
    exact .inr (.inr (.inl ⟨a, va, .inr (.inl hi), ha, toNat_zext16 va⟩))
  | jumpTo a va hi ha =>
    exact .inr (.inr (.inl ⟨a, va, hi.imp_right .inr, ha, toNat_zext16 va⟩))
  | retTo top rest hi hs => exact .inr (.inr (.inr ⟨hi, rest, hs⟩))

/-- An instruction that lies inside memory leaves the pc in 0..32768 (R24). -/
theorem Effect.pcInRange (h : Effect i s t) (hfit : s.pc.toNat + (1 + i.arity) ≤ 32768)
    (hst : s.StackInRange) : t.PcInRange := by
  unfold State.PcInRange
  obtain ⟨-, hpc⟩ | ⟨-, hpc⟩ | ⟨-, v, -, -, hpc⟩ | ⟨-, rest, hs⟩ := h.pcMoves
  · rw [hpc]
    omega
  · rw [hpc, ← State.next, State.toNat_next hfit]
    exact hfit
  · rw [hpc]
    exact v.isLt.le
  · exact hst t.pc (hs ▸ List.mem_cons_self)

/-- What a host operation does to the pc: a delivery advances it by 2, and a restore sets it to the
snapshot's (R213, R253). -/
theorem HostEffect.pc_cases {op : HostOp} (h : HostEffect s op t) :
    t.pc = s.pc
      ∨ s.runState = .waitInput
        ∧ ((∃ c, op = .deliver c ∧ c ≤ 32767 ∧ t.pc = s.pc + 2)
          ∨ ∃ p, op = .restore (some p) ∧ SnapshotInRange p s.stackCapacity
            ∧ t.pc.toNat = p.pc) := by
  cases h with
  | delivered c hw hc => exact .inr ⟨hw, .inl ⟨c, rfl, hc, rfl⟩⟩
  | restored p hw hp =>
    have hpc : p.pc < 2 ^ 16 := Nat.lt_of_le_of_lt hp.1 (by decide)
    exact .inr ⟨hw, .inr ⟨p, rfl, hp, Nat.mod_eq_of_lt hpc⟩⟩
  | deliverWide | reg7Written | reported => exact .inl rfl

/-! ## The stack -/

/-- An instruction leaves the stack alone, pops its top, or pushes a value or a return address on a
stack with room (R27). -/
theorem Effect.stack_cases (h : Effect i s t) :
    t.stack = s.stack ∨ (∃ top, s.stack = top :: t.stack)
      ∨ ∃ c, s.stackFull = false ∧ t.stack = c :: s.stack
        ∧ ((∃ v, c = zext16 v) ∨ ∃ a, i = .call a ∧ c = s.next 2) := by
  cases h with
  | popReg r v top rest hi hs => exact .inr (.inl ⟨top, hs⟩)
  | retTo top rest hi hs => exact .inr (.inl ⟨top, hs⟩)
  | pushWord a va hi hf => exact .inr (.inr ⟨_, hf, rfl, .inl ⟨va, rfl⟩⟩)
  | callTo a va hi hf => exact .inr (.inr ⟨_, hf, rfl, .inr ⟨a, hi, rfl⟩⟩)
  | fault | regWrite | store | jumpTo | advance | retHalt | haltNow | emit | wait => exact .inl rfl

theorem Effect.stackInRange (h : Effect i s t) (hfit : s.pc.toNat + (1 + i.arity) ≤ 32768)
    (hst : s.StackInRange) : t.StackInRange := by
  obtain heq | ⟨top, hs⟩ | ⟨c, -, heq, hc⟩ := h.stack_cases
  · rwa [State.StackInRange, heq]
  · exact fun c hc => hst c (hs ▸ List.mem_cons_of_mem _ hc)
  · have hle : c.toNat ≤ 32768 := by
      obtain ⟨v, rfl⟩ | ⟨a, rfl, rfl⟩ := hc
      · rw [toNat_zext16]
        exact v.isLt.le
      · exact (State.toNat_next hfit).trans_le hfit
    rw [State.StackInRange, heq]
    exact List.forall_mem_cons.mpr ⟨hle, hst⟩

/-- A stack that fits and is not full has room for one more entry. -/
theorem StackCapacity.fits_succ {cap : StackCapacity} {depth : Nat}
    (hfit : StackCapacity.fits cap depth = true) (hfull : StackCapacity.full cap depth = false) :
    StackCapacity.fits cap (depth + 1) = true := by
  rw [StackCapacity.fits_iff] at hfit ⊢
  intro n hn
  have hne : depth ≠ n := by
    rintro rfl
    exact Bool.eq_false_iff.mp hfull (StackCapacity.full_iff.mpr hn)
  have := hfit n hn
  omega

theorem Effect.stackFits (h : Effect i s t) (hf : s.StackFits) : t.StackFits := by
  rw [State.StackFits, h.stackCapacity_eq]
  obtain heq | ⟨top, hs⟩ | ⟨c, hroom, heq, -⟩ := h.stack_cases
  · rwa [heq]
  · rw [State.StackFits, hs, StackCapacity.fits_iff] at hf
    exact StackCapacity.fits_iff.mpr fun n hn => Nat.le_of_succ_le (hf n hn)
  · rw [heq]
    exact StackCapacity.fits_succ hf hroom

/-! ## The status registers and the wait -/

/-- The status fields that a run which has not ended holds: all 0 (R29). -/
def State.StatusClear (s : State) : Prop :=
  s.haltReason = none ∧ s.faultCause = none ∧ s.faultPc = 0 ∧ s.faultInfo = 0

/-- The run has not ended: the core is RUNNING or waits. -/
def State.Live (s : State) : Prop := s.runState = .running ∨ s.runState = .waitInput

theorem State.StatusCoherent.clear (h : s.StatusCoherent) (hl : s.Live) : s.StatusClear := by
  obtain ⟨hhalt, hfault, hregs⟩ := h
  have hnh : s.runState ≠ .halted := by rcases hl with hl | hl <;> simp [hl]
  have hnf : s.runState ≠ .faulted := by rcases hl with hl | hl <;> simp [hl]
  exact ⟨not_not.mp (mt hhalt.mp hnh), not_not.mp (mt hfault.mp hnf), hregs hnf⟩

theorem State.StatusClear.coherent (h : s.StatusClear) (hl : s.Live) : s.StatusCoherent := by
  obtain ⟨hhalt, hcause, hregs⟩ := h
  rcases hl with hl | hl <;> simp [State.StatusCoherent, hl, hhalt, hcause, hregs]

theorem State.StatusClear.coherent_raiseFault (h : s.StatusClear) (c : FaultCause) (w : Cell) :
    (s.raiseFault c w).StatusCoherent := by
  simp [State.StatusCoherent, h.1]

theorem State.StatusClear.coherent_haltWith (h : s.StatusClear) (reason : HaltReason) :
    (s.haltWith reason).StatusCoherent := by
  obtain ⟨-, hcause, hregs⟩ := h
  simp [State.StatusCoherent, hcause, hregs]

/-- An instruction raises a fault, halts, enters the wait, or leaves the status registers alone. -/
theorem Effect.status_cases (h : Effect i s t) :
    (∃ c w, t = s.raiseFault c w) ∨ (∃ reason, t = s.haltWith reason)
      ∨ (∃ r, i = .inp (.reg r) ∧ t = { s with inDest := r, runState := .waitInput })
      ∨ StatusKept s t := by
  cases h with
  | fault c w => exact .inl ⟨c, w, rfl⟩
  | retHalt | haltNow => exact .inr (.inl ⟨_, rfl⟩)
  | wait r hi => exact .inr (.inr (.inl ⟨r, hi, rfl⟩))
  | regWrite | popReg | store | pushWord | callTo | jumpTo | advance | retTo | emit =>
    exact .inr (.inr (.inr ⟨rfl, rfl, rfl, rfl, rfl⟩))

theorem StatusKept.clear (h : StatusKept s t) (hc : s.StatusClear) : t.StatusClear := by
  obtain ⟨-, hhalt, hcause, hpc, hinfo⟩ := h
  rwa [State.StatusClear, hhalt, hcause, hpc, hinfo]

theorem Effect.statusCoherent (h : Effect i s t) (hr : s.runState = .running)
    (hc : s.StatusClear) : t.StatusCoherent := by
  obtain ⟨c, w, rfl⟩ | ⟨reason, rfl⟩ | ⟨r, -, rfl⟩ | hk := h.status_cases
  · exact hc.coherent_raiseFault c w
  · exact hc.coherent_haltWith reason
  · exact State.StatusClear.coherent hc (.inr rfl)
  · exact (hk.clear hc).coherent (.inl (hk.1.trans hr))

/-- The core waits only at an `in` that it has just fetched, with that `in`'s register latched
(R212). -/
theorem Effect.waitsAtIn {rest : List Cell} (h : Effect i s t) (hr : s.runState = .running)
    (hd : decode s.fetched = .ok (i, rest)) : t.WaitsAtIn := by
  intro hw
  obtain ⟨c, w, rfl⟩ | ⟨reason, rfl⟩ | ⟨r, rfl, rfl⟩ | hk := h.status_cases
  · cases hw
  · cases hw
  · have hfit : s.pc.toNat + 2 ≤ 32768 := fetched_fits hd
    have hop : s.mem.read s.pc.toNat = 20 := read_of_fetched (k := 0) hd Nat.two_pos
    have hreg : s.mem.read (s.pc.toNat + 1) = regCell r :=
      read_of_fetched (k := 1) hd Nat.one_lt_two
    exact ⟨by show s.pc.toNat ≤ 32766; omega, hop, hreg⟩
  · rw [hk.1, hr] at hw
    cases hw

theorem State.waitsAtIn_of_ne (h : s.runState ≠ .waitInput) : s.WaitsAtIn :=
  fun hw => absurd hw h

/-! ## The invariant -/

/-- A fault raised in a run that has not ended keeps the invariant. -/
theorem State.Inv.raiseFault (h : s.Inv) (hl : s.Live) (c : FaultCause) (w : Cell) :
    (s.raiseFault c w).Inv := by
  obtain ⟨hpc, hst, hfits, hmem, -, hstatus⟩ := h
  exact ⟨hpc, hst, hfits, hmem, State.waitsAtIn_of_ne (by simp),
    (hstatus.clear hl).coherent_raiseFault c w⟩

/-- Running a fetched instruction keeps the invariant. -/
theorem Effect.inv {rest : List Cell} (h : Effect i s t) (hi : s.Inv)
    (hr : s.runState = .running) (hd : decode s.fetched = .ok (i, rest)) : t.Inv := by
  obtain ⟨-, hst, hfits, hmem, -, hstatus⟩ := hi
  have hfit := fetched_fits hd
  exact ⟨h.pcInRange hfit hst, h.stackInRange hfit hst, h.stackFits hfits, h.memWf hmem,
    h.waitsAtIn hr hd, h.statusCoherent hr (hstatus.clear (.inl hr))⟩

/-- A completed delivery keeps the invariant: the wait stands at an `in`, so the pc has room to
advance by 2 (R213). -/
theorem State.Inv.delivered (h : s.Inv) (hw : s.runState = .waitInput) (v : Word) :
    ({ (s.setReg s.inDest v).advance 2 with runState := .running } : State).Inv := by
  obtain ⟨-, hst, hfits, hmem, hwait, hstatus⟩ := h
  obtain ⟨hpc, -, -⟩ := hwait hw
  have hfit : s.pc.toNat + 2 ≤ 32768 := by omega
  exact ⟨(State.toNat_next hfit).trans_le hfit, hst, hfits, hmem,
    State.waitsAtIn_of_ne (by simp),
    State.StatusClear.coherent (hstatus.clear (.inr hw)) (.inl rfl)⟩

/-- Restoring a valid snapshot keeps the invariant, whatever the snapshot holds (R253). -/
theorem State.Inv.restoreFrom {p : Snapshot} (h : s.Inv) (hw : s.runState = .waitInput)
    (hp : SnapshotInRange p s.stackCapacity) : (s.restoreFrom p).Inv := by
  obtain ⟨-, -, -, -, -, hstatus⟩ := h
  have hmem : (s.restoreFrom p).MemWf := State.restoreFrom_memWf hp
  obtain ⟨hpc, -, hst, hdepth, -, -⟩ := hp
  refine ⟨(Nat.mod_le _ _).trans hpc, ?_, ?_, hmem,
    State.waitsAtIn_of_ne (by simp [State.restoreFrom]),
    State.StatusClear.coherent (hstatus.clear (.inr hw)) (.inl rfl)⟩
  · intro c hc
    obtain ⟨v, hv, rfl⟩ := List.mem_map.mp (List.mem_reverse.mp hc)
    exact (Nat.mod_le _ _).trans (hst v hv)
  · exact StackCapacity.fits_iff.mpr (by simpa [State.restoreFrom] using hdepth)

/-- Every host operation keeps the invariant. -/
theorem HostEffect.inv {op : HostOp} (h : HostEffect s op t) (hi : s.Inv) : t.Inv := by
  cases h with
  | deliverWide c w hw => exact hi.raiseFault (.inr hw) _ _
  | delivered c hw => exact hi.delivered hw _
  | restored p hw hp => exact hi.restoreFrom hw hp
  | reg7Written | reported => exact hi

end Sys2Proof.Machine
end

section
/-!
PROOFS. The statements of the family 10_state: the invariant and the safety statements over every
transition, then those about one instruction, the status read and the reset state.
-/

namespace Sys2Proof.Machine

/-- Settles O51: a fault of the fetch, a fetched instruction and a host operation each keep the
invariant. -/
theorem stepKeepsInvariant : Obligations.StepKeepsInvariant := by
  intro s t hi h
  cases step_effect h with
  | fetchFault c w hr => exact hi.raiseFault (.inl hr) c w
  | instr i rest hr hd he => exact he.inv hi hr hd
  | host op rest hr hq he => exact he.inv hi

/-- Settles O52: only a cell write inside memory and a restore of 32768 cells touch memory. -/
theorem stepKeepsMemoryCanonical : Obligations.StepKeepsMemoryCanonical := by
  intro s t hm h
  cases step_effect h with
  | fetchFault => exact hm
  | instr i rest hr hd he => exact he.memWf hm
  | host op rest hr hq he => exact he.memWf hm

/-- Settles O53, from the effects of the instructions. -/
theorem onlyDestinationIsWritten : Obligations.OnlyDestinationIsWritten :=
  fun _ _ _ _ h hne => (exec_effect h).dests_of_reg_ne hne

/-- Settles O54, from what the core's and the host's effects do to memory. -/
theorem onlyWmemAndRestoreWriteMemory : Obligations.OnlyWmemAndRestoreWriteMemory := by
  intro s t h hne
  cases step_effect h with
  | fetchFault => exact absurd rfl hne
  | instr i rest hr hd he =>
    obtain heq | ⟨a, b, va, c, rfl, -⟩ := he.mem_cases
    · exact absurd heq hne
    · exact .inl ⟨hr, a, b, rest, hd⟩
  | host op rest hr hq he =>
    obtain heq | ⟨p, rfl, hw, hp, -⟩ := he.mem_cases
    · exact absurd heq hne
    · exact .inr ⟨hw, p, rest, hq, Snapshot.valid_iff_inRange.mpr hp⟩

/-- Settles O55: `Effect.pcMoves` for the core, `HostEffect.pc_cases` for the host. -/
theorem pcChangesOnlyAsListed : Obligations.PcChangesOnlyAsListed := by
  refine ⟨fun i s t h => (exec_effect h).pcMoves, fun s t hr h => ?_, fun s t hr h hne => ?_⟩
  · cases step_effect h with
    | fetchFault c w => exact .inl ⟨rfl, c, _, faultTaken_raiseFault s c w⟩
    | instr i rest _ hd he => exact .inr ⟨i, rest, hd, he.pcMoves⟩
    | host op rest hn => exact absurd hr hn
  · cases step_effect h with
    | fetchFault c w hn => exact absurd hn hr
    | instr i rest hn => exact absurd hn hr
    | host op rest _ hq he =>
      obtain heq | ⟨hw, ⟨c, rfl, hc, hpc⟩ | ⟨p, rfl, hp, hpc⟩⟩ := he.pc_cases
      · exact absurd heq hne
      · exact ⟨hw, .inl ⟨c, rest, hq, hc, hpc⟩⟩
      · exact ⟨hw, .inr ⟨p, rest, hq, hp, hpc⟩⟩

/-- Settles O39: of the host's effects, a register-7 write and a report leave the core waiting. -/
theorem waitEndsOnlyByHost : Obligations.WaitEndsOnlyByHost := by
  intro s t hw h
  have hn : s.runState ≠ .running := by simp [hw]
  cases step_effect h with
  | fetchFault c w hr => exact absurd hr hn
  | instr i rest hr => exact absurd hr hn
  | host op rest _ hq he =>
    cases he with
    | deliverWide c | delivered c => exact .inl ⟨c, rest, hq⟩
    | restored p _ hp => exact .inr (.inl ⟨p, rest, hq, Snapshot.valid_iff_inRange.mpr hp⟩)
    | reg7Written v n =>
      exact .inr (.inr ⟨hw, rfl, rfl, fun _ => rfl, rfl, fun r hr => State.reg_setReg_of_ne _ _ hr⟩)
    | reported => exact .inr (.inr ⟨hw, rfl, rfl, fun _ => rfl, rfl, fun _ _ => rfl⟩)

/-! ## One instruction -/

theorem exec_push_room {s : State} {a : Src} {va : Word} (ha : s.resolve a = .ok va)
    (hroom : s.stackFull = false) :
    exec (.push a) s = .next ((s.push (zext16 va)).advance 2) := by
  rw [exec, execPush, withSrc_ok _ ha, withPush_room _ _ hroom]

theorem exec_pop_narrow {s : State} {top : Cell} {rest : List Cell} (r : RegIdx)
    (hs : s.stack = top :: rest) (htop : top.toNat ≤ 32767) :
    exec (.pop (.reg r)) s
      = .next (({ s with stack := rest }.setReg r (low15 top)).advance 2) := by
  simp only [exec, execPop, withDest_reg, hs]
  rw [withWord_narrow _ htop, writeBack]

/-- Settles O20: the pop finds the pushed word on top, and it is narrow. -/
theorem pushThenPop : Obligations.PushThenPop := by
  intro s r a va ha hroom
  have hnarrow : (zext16 va).toNat ≤ 32767 := by
    rw [toNat_zext16]
    exact Nat.le_of_lt_succ va.isLt
  refine ⟨_, _, exec_push_room ha hroom, exec_pop_narrow r rfl hnarrow, rfl, ?_, ?_,
    fun q hq => State.reg_setReg_of_ne _ _ hq, fun _ => rfl⟩
  · simp
  · exact BitVec.add_assoc s.pc 2 2

/-- Settles O36: the step of `in` writes the latch and the run state alone. -/
theorem inEntersWait : Obligations.InEntersWait := fun s r =>
  ⟨{ s with inDest := r, runState := .waitInput }, rfl, rfl, rfl, rfl, fun _ => rfl, rfl,
    fun _ => rfl, rfl, rfl, rfl, rfl, rfl, rfl, rfl, rfl⟩

/-! ## STATUS and reset -/

/-- The bit fields of a word packed from a fault cause, a halt reason and a state as R29 lays out
STATUS. -/
theorem status_fields {w : Cell} {cause reason state : Nat} (hc : cause < 16) (hh : reason < 4)
    (hs : state < 4) (hw : w = BitVec.ofNat 16 (cause * 16 + reason * 4 + state)) :
    (w.extractLsb' 0 2).toNat = state ∧ (w.extractLsb' 2 2).toNat = reason
      ∧ (w.extractLsb' 4 4).toNat = cause ∧ (w.extractLsb' 8 8).toNat = 0 := by
  simp only [hw, BitVec.extractLsb'_toNat, BitVec.toNat_ofNat, Nat.shiftRight_eq_div_pow]
  omega

theorem RunState.code_lt (r : RunState) : r.code < 4 := by
  cases r <;> decide

theorem haltReason_code_lt (h : Option HaltReason) : h.elim 0 HaltReason.code < 4 := by
  rcases h with - | (- | -) <;> decide

theorem faultCause_code_lt (c : Option FaultCause) : c.elim 0 FaultCause.code < 16 := by
  rcases c with - | c
  · decide
  · cases c <;> decide

/-- Settles O45: `status_fields` reads the codes back, and each code is the number of R29
and R31. -/
theorem readStatusFields : Obligations.ReadStatusFields := by
  intro s
  obtain ⟨hstate, hreason, hcause, hreserved⟩ := status_fields
    (faultCause_code_lt s.faultCause) (haltReason_code_lt s.haltReason) s.runState.code_lt
    (w := s.readStatus.status) rfl
  refine ⟨rfl, hstate.trans ?_, hreason.trans ?_, hcause.trans ?_, hreserved, rfl, rfl, rfl⟩
  · cases s.runState <;> rfl
  · rcases s.haltReason with - | (- | -) <;> rfl
  · rcases s.faultCause with - | c
    · rfl
    · cases c <;> rfl

/-- Settles O49: the reset state's fields are the values of R270. -/
theorem resetValues : Obligations.ResetValues :=
  ⟨rfl, fun r => by simp [State.reg, State.reset], rfl, fun _ => rfl, rfl, rfl, rfl⟩

end Sys2Proof.Machine
end

section
/-!
PROOFS. The statements of the family 20_memory: the fetch reads memory as it stands (R61), and the
host's side of the state takes no part in a step of the core (R63, R250).
-/

namespace Sys2Proof.Machine

/-! ## A wmem and the next fetch -/

theorem exec_wmem_ok {s : State} {a b : Src} {va vb : Word} (ha : s.resolve a = .ok va)
    (hb : s.resolve b = .ok vb) :
    exec (.wmem a b) s = .next ((s.writeCell va (zext16 vb)).advance 3) := by
  rw [exec, execWmem, withSS_ok _ ha hb]

/-- Each of the fetch's four words is the cell at its address, where memory has one (R101, R102). -/
theorem State.getElem?_fetched {s : State} {k : Nat} (hk : k < 4) (hfit : s.pc.toNat + k < 32768) :
    s.fetched[k]? = some (s.mem.read (s.pc.toNat + k)) :=
  Memory.getElem?_fetchCells s.mem hk hfit

/-- Settles O57: the fetched word is the cell at the written address, which reads what was
written. -/
theorem wmemSeenByNextFetch : Obligations.WmemSeenByNextFetch := by
  intro s a b va vb hm ha hb
  refine ⟨_, exec_wmem_ok ha hb, fun pc' k hk hpc => ?_⟩
  have hfit : pc'.toNat + k < 32768 := hpc ▸ va.isLt
  rw [State.getElem?_fetched hk hfit, hpc]
  exact congrArg some (Memory.read_write_same (zext16 vb) hm)

/-! ## The host's side of the state -/

/-- The state with another queue of host operations and other reports. -/
def State.withHost (s : State) (ops : List HostOp) (rs : List HostReply) : State :=
  { s with hostOps := ops, replies := rs }

@[simp] theorem State.withHost_runState (s : State) (ops : List HostOp) (rs : List HostReply) :
    (s.withHost ops rs).runState = s.runState := rfl
@[simp] theorem State.withHost_stack (s : State) (ops : List HostOp) (rs : List HostReply) :
    (s.withHost ops rs).stack = s.stack := rfl
@[simp] theorem State.withHost_fetched (s : State) (ops : List HostOp) (rs : List HostReply) :
    (s.withHost ops rs).fetched = s.fetched := rfl

/-- The same replacement in the next state that a meaning answers. -/
def withHostAfter (ops : List HostOp) (rs : List HostReply) : Result → Result
  | .next t => .next (t.withHost ops rs)
  | .fault f => .fault f
  | .refused r => .refused r

section
variable {s : State} {ops : List HostOp} {rs : List HostReply}

/-! Each shared operation of the meanings commutes with the replacement when what it goes on with
does. -/

theorem withSrc_withHost {a : Src} {k k' : Word → Result}
    (hk : ∀ v, k' v = withHostAfter ops rs (k v)) :
    withSrc (s.withHost ops rs) a k' = withHostAfter ops rs (withSrc s a k) := by
  cases a with
  | lit v => exact hk v
  | reg r => exact hk (s.reg r)
  | undef w => rfl

theorem withDest_withHost {d : Dest} {k k' : RegIdx → Result}
    (hk : ∀ r, k' r = withHostAfter ops rs (k r)) :
    withDest (s.withHost ops rs) d k' = withHostAfter ops rs (withDest s d k) := by
  cases d with
  | reg r => exact hk r
  | notReg w => rfl

theorem withDSS_withHost {d : Dest} {a b : Src} {k k' : RegIdx → Word → Word → Result}
    (hk : ∀ r va vb, k' r va vb = withHostAfter ops rs (k r va vb)) :
    withDSS (s.withHost ops rs) d a b k' = withHostAfter ops rs (withDSS s d a b k) :=
  withDest_withHost fun r => withSrc_withHost fun va => withSrc_withHost fun vb => hk r va vb

theorem withDS_withHost {d : Dest} {a : Src} {k k' : RegIdx → Word → Result}
    (hk : ∀ r va, k' r va = withHostAfter ops rs (k r va)) :
    withDS (s.withHost ops rs) d a k' = withHostAfter ops rs (withDS s d a k) :=
  withDest_withHost fun r => withSrc_withHost fun va => hk r va

theorem withSS_withHost {a b : Src} {k k' : Word → Word → Result}
    (hk : ∀ va vb, k' va vb = withHostAfter ops rs (k va vb)) :
    withSS (s.withHost ops rs) a b k' = withHostAfter ops rs (withSS s a b k) :=
  withSrc_withHost fun va => withSrc_withHost fun vb => hk va vb

theorem ite_withHost {c : Prop} [Decidable c] {r₁ r₂ r₁' r₂' : Result}
    (h₁ : r₁' = withHostAfter ops rs r₁) (h₂ : r₂' = withHostAfter ops rs r₂) :
    (if c then r₁' else r₂') = withHostAfter ops rs (if c then r₁ else r₂) := by
  rw [h₁, h₂, apply_ite (withHostAfter ops rs)]

theorem withPush_withHost {c : Cell} {k k' : State → Result}
    (hk : k' ((s.push c).withHost ops rs) = withHostAfter ops rs (k (s.push c))) :
    withPush (s.withHost ops rs) c k' = withHostAfter ops rs (withPush s c k) :=
  ite_withHost rfl hk

theorem withWord_withHost {c : Cell} {k k' : Word → Result}
    (hk : ∀ v, k' v = withHostAfter ops rs (k v)) :
    withWord (s.withHost ops rs) c k' = withHostAfter ops rs (withWord s c k) :=
  ite_withHost rfl (hk _)

/-- No instruction's meaning reads or writes the host's side of the state. -/
theorem exec_withHost (i : Instr) :
    exec i (s.withHost ops rs) = withHostAfter ops rs (exec i s) := by
  cases i with
  | halt | noop => rfl
  | jmp | out => exact withSrc_withHost fun _ => rfl
  | inp => exact withDest_withHost fun _ => rfl
  | wmem => exact withSS_withHost fun _ _ => rfl
  | set | not => exact withDS_withHost fun _ _ => rfl
  | eq | gt | add | mult | and | or => exact withDSS_withHost fun _ _ _ => rfl
  | mod => exact withDSS_withHost fun _ _ _ => ite_withHost rfl rfl
  | rmem => exact withDS_withHost fun _ _ => withWord_withHost fun _ => rfl
  | push | call => exact withSrc_withHost fun _ => withPush_withHost rfl
  | jt a b | jf a b =>
    refine withSS_withHost fun va vb => ?_
    cases condHolds va <;> rfl
  | ret =>
    simp only [exec, execRet, State.withHost_stack]
    cases s.stack with
    | nil => rfl
    | cons top rest => rfl
  | pop d =>
    refine withDest_withHost fun r => ?_
    simp only [State.withHost_stack]
    cases s.stack with
    | nil => rfl
    | cons top rest => exact withWord_withHost fun _ => rfl

/-- Nor does the core's step: what it fetches does not depend on the host's side. -/
theorem coreStep_withHost : coreStep (s.withHost ops rs) = withHostAfter ops rs (coreStep s) := by
  simp only [coreStep, State.withHost_fetched]
  split
  · exact exec_withHost _
  · rfl
  · rfl

end

/-- Settles O58: in RUNNING the step is `coreStep`, and `coreStep_withHost` says it of that. -/
theorem coreStepIgnoresHost : Obligations.CoreStepIgnoresHost := by
  intro s t ops rs hr h
  rw [step_of_running hr] at h
  calc step (s.withHost ops rs)
    _ = coreStep (s.withHost ops rs) := step_of_running ((s.withHost_runState ops rs).trans hr)
    _ = withHostAfter ops rs (coreStep s) := coreStep_withHost
    _ = .next (t.withHost ops rs) := by rw [h, withHostAfter]

end Sys2Proof.Machine
end

section
/-!
PROOFS. The decoder and the encoder are inverse to each other (R70, R71, R74).
-/

namespace Sys2Proof

theorem Instr.encodable_iff {i : Instr} :
    i.Encodable ↔ (∀ d ∈ i.dests, d.encodable = true) ∧ ∀ a ∈ i.srcs, a.encodable = true := by
  simp [Instr.Encodable, Instr.encodable]

/-- Sorting the operand words of an encodable instruction gives its operands back. -/
theorem Instr.Encodable.ofCell_toCell {i : Instr} (h : i.Encodable) :
    (∀ d ∈ i.dests, Dest.ofCell d.toCell = d) ∧ ∀ a ∈ i.srcs, Src.ofCell a.toCell = a := by
  obtain ⟨hd, hs⟩ := Instr.encodable_iff.mp h
  exact ⟨fun d hmem => Dest.ofCell_toCell (hd d hmem), fun a hmem => Src.ofCell_toCell (hs a hmem)⟩

/-- Decoding an encoding gives the instruction back: in each row of the opcode table the operand
words are sorted as the operands they came from. -/
theorem decode_encode {i : Instr} (h : i.Encodable) (rest : List Cell) :
    decode (encode i ++ rest) = .ok (i, rest) := by
  obtain ⟨hd, hs⟩ := h.ofCell_toCell
  cases i with
  | halt | ret | noop => rfl
  | push a | jmp a | call a | out a =>
    simp [encode, decode, decodeOp, takeF1, hs a (by simp [Instr.srcs])]
  | pop d | inp d =>
    simp [encode, decode, decodeOp, takeF1, hd d (by simp [Instr.dests])]
  | set d a | not d a | rmem d a =>
    simp [encode, decode, decodeOp, takeF2, ds, hd d (by simp [Instr.dests]),
      hs a (by simp [Instr.srcs])]
  | jt a b | jf a b | wmem a b =>
    simp [encode, decode, decodeOp, takeF2, ss, hs a (by simp [Instr.srcs]),
      hs b (by simp [Instr.srcs])]
  | eq d a b | gt d a b | add d a b | mult d a b | mod d a b | and d a b | or d a b =>
    simp [encode, decode, decodeOp, takeF3, dss, hd d (by simp [Instr.dests]),
      hs a (by simp [Instr.srcs]), hs b (by simp [Instr.srcs])]

/-- Every operand the decoder answers is a sorted word, so its instruction is encodable. -/
theorem decodeOp_encodable {op : Cell} {ws rest : List Cell} {i : Instr}
    (h : decodeOp op ws = .ok (i, rest)) : i.Encodable := by
  unfold decodeOp at h
  split at h
  case h_23 => cases h
  case h_1 | h_19 | h_22 =>
    cases h
    rfl
  case h_3 | h_4 | h_7 | h_18 | h_20 | h_21 =>
    obtain ⟨w, -, rfl⟩ := takeF1_ok h
    simp [Instr.encodable_iff, Instr.dests, Instr.srcs, Src.ofCell_encodable, Dest.ofCell_encodable]
  case h_2 | h_8 | h_9 | h_15 | h_16 | h_17 =>
    obtain ⟨w1, w2, -, rfl⟩ := takeF2_ok h
    simp [Instr.encodable_iff, Instr.dests, Instr.srcs, ds, ss, Src.ofCell_encodable,
      Dest.ofCell_encodable]
  case h_5 | h_6 | h_10 | h_11 | h_12 | h_13 | h_14 =>
    obtain ⟨w1, w2, w3, -, rfl⟩ := takeF3_ok h
    simp [Instr.encodable_iff, Instr.dests, Instr.srcs, dss, Src.ofCell_encodable,
      Dest.ofCell_encodable]

theorem decode_encodable {ws rest : List Cell} {i : Instr} (h : decode ws = .ok (i, rest)) :
    i.Encodable := by
  cases ws with
  | nil => cases h
  | cons op ws => exact decodeOp_encodable h

/-- Settles O1, by `decode_encode`. -/
theorem decodeOfEncode : Obligations.DecodeOfEncode := fun _ rest h => decode_encode h rest

/-- Settles O2: the accepted words are the encoding, and its operands are the
sorted words. -/
theorem encodeOfDecode : Obligations.EncodeOfDecode := fun _ _ _ h =>
  ⟨decode_words h, decode_encodable h⟩

end Sys2Proof
end

section
/-!
PROOFS. The opcode word: which words select an instruction, and how many words the selected
instruction takes (R72, R74, R76).
-/

namespace Sys2Proof

/-- The per-instruction law, for every instruction. -/
theorem encodedWords (i : Instr) : Laws.EncodedWords.Statement i := by
  cases i <;> exact ⟨rfl, rfl⟩

theorem length_opTable : opTable.length = 22 := rfl

/-- The words without an arity are the ones above 21 (R72). -/
theorem arityOf_eq_none_iff {op : Cell} : arityOf op = none ↔ 21 < op.toNat := by
  rw [arityOf, Option.map_eq_none_iff, List.getElem?_eq_none_iff, length_opTable]
  rfl

/-- No row of the table has more than three operands (`MAX_ARITY`, R7). -/
theorem arityOf_le_three {op : Cell} {n : Nat} (h : arityOf op = some n) : n ≤ 3 := by
  obtain ⟨row, hrow, rfl⟩ := Option.map_eq_some_iff.mp h
  have htable : ∀ row ∈ opTable, row.roles.length ≤ 3 := by decide
  exact htable row (List.mem_of_getElem? hrow)

/-- No instruction has more than three operands. -/
theorem Instr.arity_le_three (i : Instr) : i.arity ≤ 3 := by
  obtain ⟨-, harity⟩ := encodedWords i
  obtain ⟨op, -, hop⟩ := Option.bind_eq_some_iff.mp harity
  exact arityOf_le_three hop

/-- The first word of an encoding has the instruction's arity in the opcode table. -/
theorem arityOf_of_encode {op : Cell} {ws rest : List Cell} {i : Instr}
    (h : op :: ws = encode i ++ rest) : arityOf op = some i.arity := by
  obtain ⟨-, harity⟩ := encodedWords i
  obtain ⟨w, hw, hop⟩ := Option.bind_eq_some_iff.mp harity
  have hhead : (op :: ws).head? = some w := by rw [h, List.head?_append, hw, Option.some_or]
  obtain rfl := Option.some.inj hhead
  exact hop

/-- The two ways of rejecting words that have an opcode word: it is no opcode, or fewer words follow
than its arity. -/
theorem decodeOp_error {op : Cell} {ws : List Cell} {e : DecodeReject}
    (h : decodeOp op ws = .error e) :
    (arityOf op = none ∧ e = .unknownOpcode op)
      ∨ ∃ n, arityOf op = some n ∧ ws.length < n ∧ e = .truncated (1 + ws.length) := by
  unfold decodeOp at h
  split at h
  case h_23 =>
    cases h
    refine .inl ⟨arityOf_eq_none_iff.mpr ?_, rfl⟩
    simp only [imp_false] at *
    omega
  all_goals
    rename_i hop
    obtain rfl := (BitVec.toNat_eq_nat.mp hop).2
  case h_1 | h_19 | h_22 => cases h
  case h_3 | h_4 | h_7 | h_18 | h_20 | h_21 =>
    obtain ⟨he, hlt⟩ := takeF1_error h
    exact .inr ⟨1, rfl, hlt, he⟩
  case h_2 | h_8 | h_9 | h_15 | h_16 | h_17 =>
    obtain ⟨he, hlt⟩ := takeF2_error h
    exact .inr ⟨2, rfl, hlt, he⟩
  case h_5 | h_6 | h_10 | h_11 | h_12 | h_13 | h_14 =>
    obtain ⟨he, hlt⟩ := takeF3_error h
    exact .inr ⟨3, rfl, hlt, he⟩

/-- An opcode word with an arity decodes when that many words follow it. -/
theorem decode_of_arityOf {op : Cell} {ws : List Cell} {n : Nat} (hop : arityOf op = some n)
    (hlen : n ≤ ws.length) : ∃ i rest, decode (op :: ws) = .ok (i, rest) := by
  cases hd : decode (op :: ws) with
  | ok r => exact ⟨r.1, r.2, rfl⟩
  | error e =>
    obtain ⟨hnone, -⟩ | ⟨k, hk, hlt, -⟩ := decodeOp_error hd
    · simp [hop] at hnone
    · obtain rfl := Option.some.inj (hop.symm.trans hk)
      omega

/-- A word that is no opcode is rejected by name, whatever follows it (R72). -/
theorem decode_of_unknown {op : Cell} (ws : List Cell) (hop : 21 < op.toNat) :
    decode (op :: ws) = .error (.unknownOpcode op) := by
  have hnone := arityOf_eq_none_iff.mpr hop
  cases hd : decode (op :: ws) with
  | ok r =>
    have := arityOf_of_encode (decode_words hd)
    simp [hnone] at this
  | error e =>
    obtain ⟨-, rfl⟩ | ⟨k, hk, -, -⟩ := decodeOp_error hd
    · rfl
    · simp [hnone] at hk

end Sys2Proof

namespace Sys2Proof.Machine

/-- Inside memory the first word of the fetch is the cell at the pc (R102). -/
theorem State.fetched_cons {s : State} (h : s.pc.toNat < 32768) :
    ∃ ws, s.fetched = s.mem.read s.pc.toNat :: ws :=
  ⟨_, if_pos h⟩

theorem coreStep_of_ok {s : State} {i : Instr} {rest : List Cell}
    (h : decode s.fetched = .ok (i, rest)) : coreStep s = exec i s := by
  rw [coreStep, h]

theorem coreStep_of_unknownOpcode {s : State} {w : Cell}
    (h : decode s.fetched = .error (.unknownOpcode w)) : coreStep s = fault s .unknownOpcode w := by
  rw [coreStep, h]

/-- Settles O4: a known opcode has an arity of at most three, and an unknown one is rejected
before its operand words are looked at. -/
theorem opcodeWordSelects : Obligations.OpcodeWordSelects := by
  refine ⟨fun op ws hop hlen => ?_, fun op ws hop => decode_of_unknown ws hop,
    fun s hr hpc hop => ?_⟩
  · cases hn : arityOf op with
    | none => exact absurd (arityOf_eq_none_iff.mp hn) (by omega)
    | some n => exact decode_of_arityOf hn ((arityOf_le_three hn).trans hlen)
  · obtain ⟨ws, hws⟩ := State.fetched_cons (Nat.lt_succ_of_le hpc)
    have hd := decode_of_unknown ws hop
    rw [← hws] at hd
    exact ⟨_, (step_of_running hr).trans (coreStep_of_unknownOpcode hd),
      faultTaken_raiseFault s .unknownOpcode _⟩

/-- Settles O5: the list is the encoding, whose first word has the arity. -/
theorem lengthFromFirstWord : Obligations.LengthFromFirstWord := by
  intro op ws rest i h
  have hwords := decode_words h
  refine ⟨arityOf_of_encode hwords, ?_⟩
  rw [hwords, List.length_append, length_encode]

/-- Memory that holds an instruction's words from the pc on has them at the front of the fetch. -/
theorem take_fetched {s : State} {i : Instr} (hfit : s.pc.toNat + (encode i).length ≤ 32768)
    (hmem : ∀ k, k < (encode i).length → (encode i)[k]? = some (s.mem.read (s.pc.toNat + k))) :
    s.fetched.take (encode i).length = encode i := by
  have hmax : (encode i).length ≤ 4 := by
    rw [length_encode]
    exact Nat.add_le_add_left i.arity_le_three 1
  refine List.ext_getElem? fun k => ?_
  by_cases hk : k < (encode i).length
  · rw [List.getElem?_take_of_lt hk, State.getElem?_fetched (by omega) (by omega), hmem k hk]
  · simp [Nat.not_lt.mp hk]

/-- Settles O9: the fetch starts with the instruction's words, and decoding them gives it back. -/
theorem stepRunsWordsInMemory : Obligations.StepRunsWordsInMemory := by
  intro s i hr henc hfit hmem
  have hwords : s.fetched = encode i ++ s.fetched.drop (encode i).length :=
    calc s.fetched
      _ = s.fetched.take (encode i).length ++ s.fetched.drop (encode i).length :=
        (List.take_append_drop ..).symm
      _ = encode i ++ s.fetched.drop (encode i).length := by rw [take_fetched hfit hmem]
  have hd := decode_encode henc (s.fetched.drop (encode i).length)
  rw [← hwords] at hd
  exact (step_of_running hr).trans (coreStep_of_ok hd)

end Sys2Proof.Machine
end

section
/-!
PROOFS. Operand words: what each range of words resolves to, and which fault an instruction with
illegal operand words raises (R80 to R82, R103).
-/

namespace Sys2Proof

/-- The word of a register is the only word with its number. -/
theorem eq_regCell {w : Cell} {r : RegIdx} (h : w.toNat = 32768 + r.val) : w = regCell r :=
  BitVec.eq_of_toNat_eq (h.trans (toNat_regCell r).symm)

@[simp] theorem Src.ofCell_regCell (r : RegIdx) : Src.ofCell (regCell r) = .reg r :=
  Src.ofCell_toCell (a := .reg r) rfl

@[simp] theorem Dest.ofCell_regCell (r : RegIdx) : Dest.ofCell (regCell r) = .reg r :=
  Dest.ofCell_toCell (d := .reg r) rfl

/-- Settles O3, by running the decoder. -/
theorem sampleWordsDecode : Obligations.SampleWordsDecode := by
  unfold Obligations.SampleWordsDecode
  and_intros <;> rfl

end Sys2Proof

namespace Sys2Proof.Machine

/-- Settles O6: one case per range of R80. -/
theorem resolveByRange : Obligations.ResolveByRange := by
  refine fun s w => ⟨fun h => ?_, fun r h => ?_, fun h k => ?_⟩
  · exact ⟨low15 w, by rw [Src.ofCell_of_le h, State.resolve], toNat_low15 h⟩
  · rw [eq_regCell h, Src.ofCell_regCell, State.resolve]
  · rw [Src.ofCell_of_gt h]
    exact ⟨_, rfl, faultTaken_raiseFault s .badOperand w⟩

/-- Settles O7: one case per range of R82. -/
theorem destIdxByRange : Obligations.DestIdxByRange := by
  refine fun s w k => ⟨fun r h => ?_, fun h => ?_⟩
  · rw [eq_regCell h, Dest.ofCell_regCell, withDest_reg]
  · rw [Dest.ofCell_of_not (by omega)]
    exact ⟨_, rfl, faultTaken_raiseFault s .badDest w⟩

/-! ## The leftmost illegal operand -/

/-- The fault that a destination word raises, where it is illegal (R82). -/
def destFault : Dest → Option (FaultCause × Cell)
  | .reg _ => none
  | .notReg w => some (.badDest, w)

/-- The fault that a source word raises, where it is illegal (R81). -/
def srcFault : Src → Option (FaultCause × Cell)
  | .lit _ => none
  | .reg _ => none
  | .undef w => some (.badOperand, w)

theorem illegalOperands_eq (i : Instr) :
    illegalOperands i = i.dests.filterMap destFault ++ i.srcs.filterMap srcFault := rfl

section
variable {s : State} {c : FaultCause} {w : Cell} {more : List (FaultCause × Cell)}

/-- A source operand raises the first of the faults from it on, when what follows it does. -/
theorem withSrc_leftmost {a : Src} {as : List Src} {k : Word → Result}
    (h : (a :: as).filterMap srcFault = (c, w) :: more)
    (hk : as.filterMap srcFault = (c, w) :: more → ∀ v, k v = fault s c w) :
    withSrc s a k = fault s c w := by
  cases a with
  | lit v => exact hk h v
  | reg r => exact hk h (s.reg r)
  | undef v =>
    cases h
    rfl

/-- So does a destination operand. -/
theorem withDest_leftmost {d : Dest} {as : List Src} {k : RegIdx → Result}
    (h : [d].filterMap destFault ++ as.filterMap srcFault = (c, w) :: more)
    (hk : as.filterMap srcFault = (c, w) :: more → ∀ r, k r = fault s c w) :
    withDest s d k = fault s c w := by
  cases d with
  | reg r => exact hk h r
  | notReg v =>
    cases h
    rfl

/-- Every meaning takes its operands first and left to right, so it raises the fault of the leftmost
illegal one (R103). -/
theorem exec_of_illegal {i : Instr} (h : illegalOperands i = (c, w) :: more) :
    exec i s = fault s c w := by
  rw [illegalOperands_eq] at h
  cases i with
  | halt | ret | noop => cases h
  | push | jmp | call | out => exact withSrc_leftmost h nofun
  | jt | jf | wmem => exact withSrc_leftmost h fun h _ => withSrc_leftmost h nofun
  | pop | inp => exact withDest_leftmost h nofun
  | set | not | rmem => exact withDest_leftmost h fun h _ => withSrc_leftmost h nofun
  | eq | gt | add | mult | mod | and | or =>
    exact withDest_leftmost h fun h _ => withSrc_leftmost h fun h _ => withSrc_leftmost h nofun

end

/-- Settles O11: raising that fault writes the fault registers alone. -/
theorem leftmostOperandFaultWins : Obligations.LeftmostOperandFaultWins :=
  fun _ s c w _ h => ⟨_, exec_of_illegal h, faultTaken_raiseFault s c w⟩

end Sys2Proof.Machine
end

section
/-!
PROOFS. The disassembler's listing (R90): its lines cover memory without a gap or an overlap, and
each says what memory holds.
-/

namespace Sys2Proof.Machine

theorem Memory.length_cellsFrom (m : Memory) (a n : Nat) : (m.cellsFrom a n).length = n := by
  simp [Memory.cellsFrom]

theorem Memory.getElem?_cellsFrom (m : Memory) (a : Nat) {n k : Nat} (hk : k < n) :
    (m.cellsFrom a n)[k]? = some (m.read (a + k)) := by
  simp [Memory.cellsFrom, hk]

/-- The `>>` lines of the end cover the rest of memory, one address each. -/
theorem covers_dataLines (m : Memory) (a : Nat) :
    (dataLines m a).flatMap ListLine.covers = List.range' a (Config.memWords - a) := by
  simp [dataLines, List.flatMap_map, ListLine.covers]

/-- The addresses of one line, followed by the rest of memory from the line's end on. -/
theorem range'_split {a n e : Nat} (h : a + n ≤ e) :
    List.range' a n ++ List.range' (a + n) (e - (a + n)) = List.range' a (e - a) := by
  rw [List.range'_append_1]
  congr 1
  omega

/-- With enough fuel the pass from `a` covers the rest of memory: each line the pass goes on after
covers the addresses up to where it goes on. -/
theorem covers_listFrom (m : Memory) (fuel a : Nat) (hfuel : Config.memWords - a ≤ fuel) :
    (listFrom m fuel a).flatMap ListLine.covers = List.range' a (Config.memWords - a) := by
  fun_induction listFrom m fuel a with
  | case1 a => simp [Nat.le_zero.mp hfuel]
  | case2 fuel a hend => simp [Nat.sub_eq_zero_of_le hend]
  | case3 fuel a hend hrow ih =>
    rw [List.flatMap_cons, ih (by omega)]
    exact range'_split (n := 1) (by omega)
  | case4 fuel a hend row hrow hcut => exact covers_dataLines m a
  | case5 fuel a hend row hrow hcut ih =>
    rw [List.flatMap_cons, ih (by omega), ListLine.covers, Memory.length_cellsFrom, Nat.add_assoc]
    exact range'_split (by omega)

/-- Settles O59: the pass from address 0 has a line's worth of fuel for every cell. -/
theorem listingCoversEveryAddressOnce : Obligations.ListingCoversEveryAddressOnce := by
  intro m
  rw [listing, covers_listFrom m _ 0 (Nat.sub_le _ _), Config.memWords_eq, List.range_eq_range']

/-- Where a line of the pass from `start` comes from. -/
inductive Listed (m : Memory) (start : Nat) : ListLine → Prop where
  /-- An instruction whose words lie inside memory. -/
  | instr (a : Nat) (row : OpRow) (hrow : opTable[(m.read a).toNat]? = some row)
      (hstart : start ≤ a) (hfit : a + row.roles.length ≤ 32767) :
      Listed m start (.instr a row.mnemonic (m.cellsFrom (a + 1) row.roles.length))
  /-- A cell that is no opcode. -/
  | unknown (a : Nat) (hop : 21 < (m.read a).toNat) (hstart : start ≤ a) (hend : a ≤ 32767) :
      Listed m start (.data a (m.read a))
  /-- A cell from an instruction at `b` on that would pass the end of memory. -/
  | cut (a b n : Nat) (hop : arityOf (m.read b) = some n) (hcut : 32767 < b + n)
      (hstart : start ≤ b) (hle : b ≤ a) (hend : a ≤ 32767) : Listed m start (.data a (m.read a))

theorem Listed.mono {m : Memory} {lo start : Nat} {line : ListLine} (h : Listed m lo line)
    (hle : start ≤ lo) : Listed m start line := by
  cases h with
  | instr a row hrow hstart hfit => exact .instr a row hrow (hle.trans hstart) hfit
  | unknown a hop hstart hend => exact .unknown a hop (hle.trans hstart) hend
  | cut a b n hop hcut hstart hba hend => exact .cut a b n hop hcut (hle.trans hstart) hba hend

theorem mem_dataLines {m : Memory} {a : Nat} {line : ListLine} (h : line ∈ dataLines m a) :
    ∃ b, a ≤ b ∧ b ≤ 32767 ∧ line = .data b (m.read b) := by
  obtain ⟨b, hb, rfl⟩ := List.mem_map.mp h
  obtain ⟨hab, hend⟩ := List.mem_range'_1.mp hb
  rw [Config.memWords_eq] at hend
  exact ⟨b, hab, by omega, rfl⟩

/-- Every line of the pass comes from one of its branches, at or after the start. -/
theorem listed_of_mem {m : Memory} {fuel start : Nat} {line : ListLine}
    (h : line ∈ listFrom m fuel start) : Listed m start line := by
  fun_induction listFrom m fuel start with
  | case1 | case2 => cases h
  | case3 fuel a hend hrow ih =>
    obtain rfl | h := List.mem_cons.mp h
    · have hop : arityOf (m.read a) = none := by rw [arityOf, hrow, Option.map_none]
      exact .unknown a (arityOf_eq_none_iff.mp hop) le_rfl (by rw [Config.memWords_eq] at hend; omega)
    · exact (ih h).mono (by omega)
  | case4 fuel a hend row hrow hcut =>
    obtain ⟨b, hab, hb, rfl⟩ := mem_dataLines h
    have hop : arityOf (m.read a) = some row.roles.length := by
      rw [arityOf, hrow, Option.map_some]
    rw [Config.memWords_eq] at hcut
    exact .cut b a _ hop (by omega) le_rfl hab hb
  | case5 fuel a hend row hrow hcut ih =>
    obtain rfl | h := List.mem_cons.mp h
    · exact .instr a row hrow le_rfl (by rw [Config.memWords_eq] at hcut; omega)
    · exact (ih h).mono (by omega)

/-- Settles O60: what each kind of line says is what the branch that printed it has tested. -/
theorem listingLinesMatchMemory : Obligations.ListingLinesMatchMemory := by
  intro m fuel start line h
  cases listed_of_mem h with
  | instr a row hrow hstart hfit =>
    have hlen := m.length_cellsFrom (a + 1) row.roles.length
    exact ⟨⟨row, hrow, rfl, hlen⟩, fun k hk => m.getElem?_cellsFrom (a + 1) (hlen ▸ hk), hstart,
      hlen.symm ▸ hfit⟩
  | unknown a hop hstart hend => exact ⟨rfl, hstart, hend, .inl hop⟩
  | cut a b n hop hcut hstart hba hend =>
    exact ⟨rfl, hstart.trans hba, hend, .inr ⟨b, n, hstart, hba, hop, hcut⟩⟩

end Sys2Proof.Machine
end

section
/-!
PROOFS. The step itself: a step in RUNNING answers, runs what the fetch decodes to, and faults
without any other write; outside RUNNING only the host acts (R100 to R103, R106).
-/

namespace Sys2Proof

/-- A known opcode with too few operand words after it is rejected with the number of words that are
there (R101). -/
theorem decode_of_truncated {op : Cell} {ws : List Cell} {n : Nat} (hop : arityOf op = some n)
    (hlen : ws.length < n) : decode (op :: ws) = .error (.truncated (1 + ws.length)) := by
  cases hd : decode (op :: ws) with
  | ok r =>
    have hwords := decode_words hd
    have harity : n = r.1.arity := Option.some.inj (hop.symm.trans (arityOf_of_encode hwords))
    have hcount := congrArg List.length hwords
    rw [List.length_append, length_encode, List.length_cons] at hcount
    omega
  | error e =>
    obtain ⟨hnone, -⟩ | ⟨-, -, -, rfl⟩ := decodeOp_error hd
    · simp [hop] at hnone
    · rfl

end Sys2Proof

namespace Sys2Proof.Machine

/-- Settles O8: in RUNNING the step is `coreStep`, which runs what the fetch decodes to. -/
theorem stepRunsDecoded : Obligations.StepRunsDecoded :=
  fun _ _ _ hr hd => (step_of_running hr).trans (coreStep_of_ok hd)

/-! ## The fetch at the end of memory -/

theorem State.length_fetched (s : State) : s.fetched.length = min 4 (32768 - s.pc.toNat) :=
  Memory.length_fetchCells s.mem 4 s.pc.toNat

theorem coreStep_of_truncated {s : State} {present : Nat}
    (h : decode s.fetched = .error (.truncated present)) :
    coreStep s = fault s .fetchRange (s.next present) := by
  rw [coreStep, h]

/-- A fetch that is cut raises `FETCH_RANGE` with the address after the words that are there
(R101). -/
theorem step_of_truncated {s : State} {present : Nat} (hr : s.runState = .running)
    (h : decode s.fetched = .error (.truncated present)) :
    ∃ t, step s = .next t ∧ FaultTaken .fetchRange (s.next present).toNat s t :=
  ⟨_, (step_of_running hr).trans (coreStep_of_truncated h), faultTaken_raiseFault s .fetchRange _⟩

/-- Beyond memory there is no opcode word to fetch (R101). -/
theorem decode_fetched_beyond {s : State} (h : 32768 ≤ s.pc.toNat) :
    decode s.fetched = .error (.truncated 0) := by
  have hnil : s.fetched = [] := List.eq_nil_of_length_eq_zero (by rw [s.length_fetched]; omega)
  rw [hnil, decode]

/-- An instruction that passes the end of memory decodes to the number of words up to the end
(R101). -/
theorem decode_fetched_passing {s : State} {n : Nat} (hpc : s.pc.toNat < 32768)
    (hop : arityOf (s.mem.read s.pc.toNat) = some n) (hend : 32768 ≤ s.pc.toNat + n) :
    decode s.fetched = .error (.truncated (32768 - s.pc.toNat)) := by
  obtain ⟨ws, hws⟩ := State.fetched_cons hpc
  have hcount : 1 + ws.length = 32768 - s.pc.toNat := by
    have hlen := s.length_fetched
    have hthree := arityOf_le_three hop
    rw [hws, List.length_cons] at hlen
    omega
  rw [hws, decode_of_truncated hop (by omega), hcount]

/-- Settles O10: the words that are there end just before the address that fails. -/
theorem fetchBeyondMemoryFaults : Obligations.FetchBeyondMemoryFaults := by
  refine fun s hr => ⟨fun hpc => ?_, fun n hpc hop hend => ?_⟩
  · have hstep := step_of_truncated hr (decode_fetched_beyond hpc)
    rwa [show s.next 0 = s.pc from BitVec.add_zero s.pc] at hstep
  · have hstep := step_of_truncated hr (decode_fetched_passing hpc hop hend)
    rwa [State.toNat_next (by omega), Nat.add_sub_cancel' hpc.le] at hstep

/-! ## Faults -/

/-- Settles O12: of the effects of a step in RUNNING only a raised fault ends FAULTED. -/
theorem faultsArePrecise : Obligations.FaultsArePrecise := by
  intro s t hr h hfaulted
  cases step_effect h with
  | fetchFault c w => exact ⟨c, _, faultTaken_raiseFault s c w⟩
  | instr i rest _ hd he =>
    obtain ⟨c, w, rfl⟩ | ⟨reason, rfl⟩ | ⟨r, -, rfl⟩ | hkept := he.status_cases
    · exact ⟨c, _, faultTaken_raiseFault s c w⟩
    · cases hfaulted
    · cases hfaulted
    · rw [hkept.1, hr] at hfaulted
      cases hfaulted
  | host op rest hn => exact absurd hr hn

/-! ## Every instruction answers -/

/-- The outcome is a next state. -/
def Answers (r : Result) : Prop := ∃ t, r = .next t

theorem answers_next (t : State) : Answers (.next t) := ⟨t, rfl⟩

theorem answers_fault (s : State) (c : FaultCause) (w : Cell) : Answers (fault s c w) :=
  answers_next _

section
variable {s : State}

/-! Each shared operation of the meanings answers when what it goes on with does: else it raises a
fault. -/

theorem withSrc_answers {a : Src} {k : Word → Result} (hk : ∀ v, Answers (k v)) :
    Answers (withSrc s a k) := by
  unfold withSrc
  split
  · exact hk _
  · exact answers_fault ..

theorem withDest_answers {d : Dest} {k : RegIdx → Result} (hk : ∀ r, Answers (k r)) :
    Answers (withDest s d k) := by
  cases d with
  | reg r => exact hk r
  | notReg w => exact answers_fault ..

theorem withDSS_answers {d : Dest} {a b : Src} {k : RegIdx → Word → Word → Result}
    (hk : ∀ r va vb, Answers (k r va vb)) : Answers (withDSS s d a b k) :=
  withDest_answers fun r => withSrc_answers fun va => withSrc_answers fun vb => hk r va vb

theorem withDS_answers {d : Dest} {a : Src} {k : RegIdx → Word → Result}
    (hk : ∀ r va, Answers (k r va)) : Answers (withDS s d a k) :=
  withDest_answers fun r => withSrc_answers fun va => hk r va

theorem withSS_answers {a b : Src} {k : Word → Word → Result}
    (hk : ∀ va vb, Answers (k va vb)) : Answers (withSS s a b k) :=
  withSrc_answers fun va => withSrc_answers fun vb => hk va vb

theorem withPush_answers {c : Cell} {k : State → Result} (hk : ∀ t, Answers (k t)) :
    Answers (withPush s c k) := by
  unfold withPush
  split
  · exact answers_fault ..
  · exact hk _

theorem withWord_answers {c : Cell} {k : Word → Result} (hk : ∀ v, Answers (k v)) :
    Answers (withWord s c k) := by
  unfold withWord
  split
  · exact answers_fault ..
  · exact hk _

end

/-- Every meaning goes on through the shared operations until it answers or raises a fault. -/
theorem exec_answers (i : Instr) (s : State) : Answers (exec i s) := by
  cases i with
  | halt | noop => exact answers_next _
  | set | not => exact withDS_answers fun _ _ => answers_next _
  | eq | gt | add | mult | and | or => exact withDSS_answers fun _ _ _ => answers_next _
  | mod =>
    refine withDSS_answers fun _ _ vb => ?_
    split
    · exact answers_fault ..
    · exact answers_next _
  | push | call => exact withSrc_answers fun _ => withPush_answers fun _ => answers_next _
  | jmp | out => exact withSrc_answers fun _ => answers_next _
  | jt | jf | wmem => exact withSS_answers fun _ _ => answers_next _
  | rmem => exact withDS_answers fun _ _ => withWord_answers fun _ => answers_next _
  | inp => exact withDest_answers fun _ => answers_next _
  | pop =>
    refine withDest_answers fun _ => ?_
    split
    · exact answers_fault ..
    · exact withWord_answers fun _ => answers_next _
  | ret =>
    simp only [exec, execRet]
    split
    · exact answers_next _
    · exact answers_next _

theorem coreStep_answers (s : State) : Answers (coreStep s) := by
  unfold coreStep
  split
  · exact exec_answers _ s
  · exact answers_fault ..
  · exact answers_fault ..

/-- Settles O13: a step in RUNNING is `coreStep`, which runs an instruction or raises a fault. -/
theorem everyInstructionAnswers : Obligations.EveryInstructionAnswers :=
  ⟨exec_answers, fun s hr => step_of_running hr ▸ coreStep_answers s⟩

/-! ## Outside RUNNING -/

theorem State.Ended.not_running {s : State} (h : s.Ended) : s.runState ≠ .running := by
  rcases h with h | h <;> simp [h]

/-- In a final state the status read is the only enabled operation (R236, R250). -/
theorem State.Ended.enabled_iff {s : State} (h : s.Ended) {op : HostOp} :
    op.enabled s.runState = true ↔ op = .readStatus := by
  rcases h with h | h <;> cases op <;> simp [HostOp.enabled, h]

theorem hostTurn_of_enabled {s : State} {op : HostOp} {rest : List HostOp}
    (hq : s.hostOps = op :: rest) (hen : op.enabled s.runState = true) :
    hostTurn s = .next (performOp { s with hostOps := rest } op) := by
  simp only [hostTurn, hq, hen, if_true]

theorem hostTurn_of_empty {s : State} (hq : s.hostOps = []) :
    hostTurn s = .fault (stuck s.runState) := by
  rw [hostTurn, hq]

/-- Settles O14: outside RUNNING the step is the host's turn, in a final state for a status read
alone. -/
theorem noStepOutsideRunning : Obligations.NoStepOutsideRunning := by
  refine ⟨fun s hend t h => ?_, fun s hend rest hq => ?_, fun s ⟨hwait, hq⟩ => ?_⟩
  · rw [step_of_not_running hend.not_running] at h
    obtain ⟨op, rest, hq, hen, rfl⟩ := hostTurn_next h
    obtain rfl := hend.enabled_iff.mp hen
    exact ⟨rest, hq, rfl⟩
  · exact ⟨_, (step_of_not_running hend.not_running).trans
      (hostTurn_of_enabled hq (hend.enabled_iff.mpr rfl))⟩
  · rw [step_of_not_running (by simp [hwait]), hostTurn_of_empty hq, hwait, stuck]

end Sys2Proof.Machine
end

section
/-!
PROOFS. The statements of the family 41_machine_control: `halt` and `noop` (R130, R131).
-/

namespace Sys2Proof.Machine

/-- `Halt(reason)` writes the run state and the halt reason alone (R231). -/
theorem haltTaken_haltWith (s : State) (reason : HaltReason) :
    HaltTaken reason s (s.haltWith reason) := by
  simp [HaltTaken, RegsKept, MemKept, LatchAndHostKept]

/-- `pc <- next` changes the pc alone (R105). -/
theorem frameOfPcWrite_advance (s : State) (words : Nat) :
    FrameOfPcWrite s (s.advance words) := by
  simp [FrameOfPcWrite, RegsKept, MemKept, StatusKept, LatchAndHostKept]

theorem exec_halt (s : State) : exec .halt s = .next (s.haltWith .haltInstr) := rfl

theorem exec_noop (s : State) : exec .noop s = .next (s.advance 1) := rfl

/-- Settles O15: `halt` is `Halt(HALT_INSTR)`. -/
theorem haltEndsRun : Obligations.HaltEndsRun := fun s =>
  ⟨_, exec_halt s, haltTaken_haltWith s .haltInstr⟩

/-- Settles O16: `noop` is `pc <- next` for an instruction of one word. -/
theorem noopOnlyAdvances : Obligations.NoopOnlyAdvances := fun s =>
  ⟨_, exec_noop s, rfl, frameOfPcWrite_advance s 1⟩

end Sys2Proof.Machine
end

section
/-!
PROOFS. The statements of the family 42_register_stack: `set`, `push` and `pop` (R140, R141, R142).
-/

namespace Sys2Proof.Machine

/-! ## The checks of the stack and of a bound word, where they raise their fault -/

theorem State.stackFull_iff {s : State} :
    s.stackFull = true ↔ StackCapacity.limit s.stackCapacity = some s.stack.length :=
  StackCapacity.full_iff

theorem withPush_full {s : State} (c : Cell) (k : State → Result) (h : s.stackFull = true) :
    withPush s c k = fault s .stackOverflow 0 :=
  if_pos h

theorem withWord_wide {s : State} {c : Cell} (k : Word → Result) (h : 32767 < c.toNat) :
    withWord s c k = fault s .wideValue c :=
  if_pos h

/-! ## What a register write and a push leave unchanged -/

/-- A write-back changes the register and the pc alone (R105). -/
theorem frameOfRegWrite_setReg_advance (s : State) (r : RegIdx) (v : Word) (words : Nat) :
    FrameOfRegWrite r s ((s.setReg r v).advance words) := by
  simp +contextual [FrameOfRegWrite, RegsKeptBut, MemKept, StatusKept, LatchAndHostKept]

/-- A push that completes changes the stack and the pc alone (R141). -/
theorem frameOfStackWrite_push_advance (s : State) (c : Cell) (words : Nat) :
    FrameOfStackWrite s ((s.push c).advance words) := by
  simp [FrameOfStackWrite, RegsKept, MemKept, StatusKept, LatchAndHostKept]

/-! ## The outcomes of `set`, `push` and `pop` -/

theorem exec_set_ok {s : State} {a : Src} {va : Word} (r : RegIdx) (ha : s.resolve a = .ok va) :
    exec (.set (.reg r) a) s = .next ((s.setReg r va).advance 3) := by
  rw [exec, execSet, withDS_ok _ ha, writeBack]

theorem exec_push_full {s : State} {a : Src} {va : Word} (ha : s.resolve a = .ok va)
    (hfull : s.stackFull = true) :
    exec (.push a) s = .next (s.raiseFault .stackOverflow 0) := by
  rw [exec, execPush, withSrc_ok _ ha, withPush_full _ _ hfull, fault_eq]

theorem exec_pop_empty {s : State} (r : RegIdx) (hs : s.stack = []) :
    exec (.pop (.reg r)) s = .next (s.raiseFault .stackEmpty 0) := by
  simp only [exec, execPop, withDest_reg, hs, fault_eq]

theorem exec_pop_wide {s : State} {top : Cell} {rest : List Cell} (r : RegIdx)
    (hs : s.stack = top :: rest) (htop : 32767 < top.toNat) :
    exec (.pop (.reg r)) s = .next (s.raiseFault .wideValue top) := by
  simp only [exec, execPop, withDest_reg, hs, withWord_wide _ htop, fault_eq]

/-! ## The statements -/

/-- Settles O17: `set` is the write-back of the resolved value, for an instruction of three
words. -/
theorem setCopiesValue : Obligations.SetCopiesValue := fun s r _ va ha =>
  ⟨_, exec_set_ok r ha, State.reg_setReg_same s r va, rfl,
    frameOfRegWrite_setReg_advance s r va 3⟩

/-- Settles O18: the stack is full exactly when its depth is the limit, and a narrow value keeps
its number as a cell. -/
theorem pushGoesOnTop : Obligations.PushGoesOnTop := by
  intro s a va ha
  constructor
  · intro hroom
    have hfull : s.stackFull = false := Bool.eq_false_iff.mpr (mt State.stackFull_iff.mp hroom)
    exact ⟨_, zext16 va, exec_push_room ha hfull, rfl, toNat_zext16 va, rfl,
      frameOfStackWrite_push_advance s _ 2⟩
  · intro hlimit
    exact ⟨_, exec_push_full ha (State.stackFull_iff.mpr hlimit), faultTaken_raiseFault s _ 0⟩

/-- Settles O19: both faults are raised on the state as it stands; a pop that completes is the
write-back of the top entry to the state without it. -/
theorem popTakesTop : Obligations.PopTakesTop := by
  intro s r
  refine ⟨fun hempty => ⟨_, exec_pop_empty r hempty, faultTaken_raiseFault s _ 0⟩,
    fun top rest hs => ⟨fun hwide => ?_, fun hnarrow => ?_⟩⟩
  · exact ⟨_, exec_pop_wide r hs hwide, faultTaken_raiseFault s _ top⟩
  · obtain ⟨hregs, hstack, hmem, hstatus, hhost, hout⟩ :=
      frameOfRegWrite_setReg_advance { s with stack := rest } r (low15 top) 2
    refine ⟨_, exec_pop_narrow r hs hnarrow, ?_, hstack, rfl, hregs, hmem, hstatus, hhost, hout⟩
    rw [State.reg_advance, State.reg_setReg_same, toNat_low15 hnarrow]

end Sys2Proof.Machine
end

section
/-!
PROOFS. The statements of the family 43_compare: `eq` and `gt` (R150, R151).
-/

namespace Sys2Proof.Machine

/-! ## The tests, and the word a test is written as -/

theorem testEq_eq_decide (va vb : Word) : testEq va vb = decide (va = vb) :=
  decide_eq_decide.mpr BitVec.toNat_inj

theorem testGt_eq_decide (va vb : Word) : testGt va vb = decide (vb.toNat < va.toNat) := rfl

@[simp] theorem toNat_truth_decide (p : Prop) [Decidable p] :
    (truth (decide p)).toNat = if p then 1 else 0 := by
  by_cases hp : p
  · simp [truth, hp]
  · simp [truth, hp]

/-! ## The outcomes of `eq` and `gt` -/

theorem exec_eq_ok {s : State} {a b : Src} {va vb : Word} (r : RegIdx)
    (ha : s.resolve a = .ok va) (hb : s.resolve b = .ok vb) :
    exec (.eq (.reg r) a b) s = .next ((s.setReg r (truth (testEq va vb))).advance 4) := by
  rw [exec, execEq, withDSS_ok _ ha hb, writeBack]

theorem exec_gt_ok {s : State} {a b : Src} {va vb : Word} (r : RegIdx)
    (ha : s.resolve a = .ok va) (hb : s.resolve b = .ok vb) :
    exec (.gt (.reg r) a b) s = .next ((s.setReg r (truth (testGt va vb))).advance 4) := by
  rw [exec, execGt, withDSS_ok _ ha hb, writeBack]

/-! ## The statements -/

/-- Settles O21: `eq` is the write-back of its test, and two words are equal exactly when their
numbers are. -/
theorem eqWritesZeroOrOne : Obligations.EqWritesZeroOrOne := by
  intro s r a b va vb ha hb
  refine ⟨_, exec_eq_ok r ha hb, ?_, rfl, frameOfRegWrite_setReg_advance s r _ 4⟩
  rw [State.reg_advance, State.reg_setReg_same, testEq_eq_decide, toNat_truth_decide]

/-- Settles O22: `gt` is the write-back of its test, which compares the words' numbers. -/
theorem gtWritesZeroOrOne : Obligations.GtWritesZeroOrOne := by
  intro s r a b va vb ha hb
  refine ⟨_, exec_gt_ok r ha hb, ?_, rfl, frameOfRegWrite_setReg_advance s r _ 4⟩
  rw [State.reg_advance, State.reg_setReg_same, testGt_eq_decide, toNat_truth_decide]

end Sys2Proof.Machine
end

section
/-!
PROOFS. The statements of the family 44_jump: `jmp`, `jt` and `jf` (R160, R161, R162).
-/

namespace Sys2Proof.Machine

/-! ## What a transfer of control does -/

/-- `pc <- v` changes the pc alone (R25). -/
theorem frameOfPcWrite_jump (s : State) (v : Word) : FrameOfPcWrite s (s.jump v) := by
  simp [FrameOfPcWrite, RegsKept, MemKept, StatusKept, LatchAndHostKept]

theorem State.toNat_pc_jump (s : State) (v : Word) : (s.jump v).pc.toNat = v.toNat :=
  toNat_zext16 v

/-- What `jt` and `jf` share: both transfer on a condition and else advance past their three
words. -/
theorem jump_or_advance (s : State) (v : Word) (c : Prop) [Decidable c] :
    FrameOfPcWrite s (if c then s.jump v else s.advance 3)
      ∧ (c → (if c then s.jump v else s.advance 3).pc.toNat = v.toNat)
      ∧ (¬ c → (if c then s.jump v else s.advance 3).pc = s.pc + 3) := by
  by_cases hc : c
  · rw [if_pos hc]
    exact ⟨frameOfPcWrite_jump s v, fun _ => s.toNat_pc_jump v, fun hn => absurd hc hn⟩
  · rw [if_neg hc]
    exact ⟨frameOfPcWrite_advance s 3, fun h => absurd h hc, fun _ => rfl⟩

/-! ## The outcomes of `jmp`, `jt` and `jf` -/

theorem exec_jmp_ok {s : State} {a : Src} {va : Word} (ha : s.resolve a = .ok va) :
    exec (.jmp a) s = .next (s.jump va) := by
  rw [exec, execJmp, withSrc_ok _ ha]

theorem exec_jt_ok {s : State} {a b : Src} {va vb : Word}
    (ha : s.resolve a = .ok va) (hb : s.resolve b = .ok vb) :
    exec (.jt a b) s = .next (if va.toNat ≠ 0 then s.jump vb else s.advance 3) := by
  simp only [exec, execJt, withSS_ok _ ha hb, condHolds_iff]

theorem exec_jf_ok {s : State} {a b : Src} {va vb : Word}
    (ha : s.resolve a = .ok va) (hb : s.resolve b = .ok vb) :
    exec (.jf a b) s = .next (if va.toNat = 0 then s.jump vb else s.advance 3) := by
  simp only [exec, execJf, withSS_ok _ ha hb, condHolds_iff, ite_not]

/-! ## The statements -/

/-- Settles O23: `jmp` is `pc <- v` for its resolved target. -/
theorem jmpGoesToTarget : Obligations.JmpGoesToTarget := fun s _ va ha =>
  ⟨_, exec_jmp_ok ha, s.toNat_pc_jump va, frameOfPcWrite_jump s va⟩

/-- Settles O24: `jt` transfers on a condition that is not zero, `jf` on one that is. -/
theorem conditionalJumps : Obligations.ConditionalJumps := by
  intro s a b va vb ha hb
  constructor
  · obtain ⟨hframe, hjump, hadvance⟩ := jump_or_advance s vb (va.toNat ≠ 0)
    exact ⟨_, exec_jt_ok ha hb, hframe, hjump, fun hzero => hadvance (not_not.mpr hzero)⟩
  · exact ⟨_, exec_jf_ok ha hb, jump_or_advance s vb (va.toNat = 0)⟩

end Sys2Proof.Machine
end

section
/-!
PROOFS. The statements of the family 45_alu: `add`, `mult`, `mod`, `and`, `or` and `not` (R170 to
R175).
-/

namespace Sys2Proof.Machine

/-! ## The numbers and the bits of the ALU's results -/

@[simp] theorem toNat_aluAdd (va vb : Word) :
    (aluAdd va vb).toNat = (va.toNat + vb.toNat) % 32768 := by
  rw [aluAdd, BitVec.toNat_ofNat]
  exact Nat.mod_mod _ 32768

@[simp] theorem toNat_aluMult (va vb : Word) :
    (aluMult va vb).toNat = (va.toNat * vb.toNat) % 32768 := by
  rw [aluMult, BitVec.toNat_ofNat]
  exact Nat.mod_mod _ 32768

/-- A remainder is at most the dividend, so it is narrowed without loss (R172). -/
@[simp] theorem toNat_aluMod (va vb : Word) : (aluMod va vb).toNat = va.toNat % vb.toNat := by
  rw [aluMod, BitVec.toNat_ofNat]
  exact Nat.mod_eq_of_lt (Nat.mod_lt_of_lt va.isLt)

@[simp] theorem getLsbD_aluAnd (va vb : Word) (k : Nat) :
    (aluAnd va vb).getLsbD k = (va.getLsbD k && vb.getLsbD k) :=
  BitVec.getLsbD_and

@[simp] theorem getLsbD_aluOr (va vb : Word) (k : Nat) :
    (aluOr va vb).getLsbD k = (va.getLsbD k || vb.getLsbD k) :=
  BitVec.getLsbD_or

@[simp] theorem toNat_aluNot (va : Word) : (aluNot va).toNat = 32767 - va.toNat :=
  BitVec.toNat_not

/-- The end that the ALU's instructions share: the register holds the result, the pc is `next`, and
all else is kept (R105). -/
theorem writeBack_spec (s : State) (r : RegIdx) (v : Word) (words : Nat) :
    ∃ t, writeBack s r v words = .next t ∧ t.reg r = v ∧ t.pc = s.next words
      ∧ FrameOfRegWrite r s t :=
  ⟨_, rfl, State.reg_setReg_same s r v, rfl, frameOfRegWrite_setReg_advance s r v words⟩

/-! ## The outcomes of the ALU's instructions on operands that resolve -/

section
variable {s : State} {a b : Src} {va vb : Word} (r : RegIdx) (ha : s.resolve a = .ok va)
include ha

theorem exec_not_ok : exec (.not (.reg r) a) s = writeBack s r (aluNot va) 3 := by
  rw [exec, execNot, withDS_ok _ ha]

variable (hb : s.resolve b = .ok vb)
include hb

theorem exec_add_ok : exec (.add (.reg r) a b) s = writeBack s r (aluAdd va vb) 4 := by
  rw [exec, execAdd, withDSS_ok _ ha hb]

theorem exec_mult_ok : exec (.mult (.reg r) a b) s = writeBack s r (aluMult va vb) 4 := by
  rw [exec, execMult, withDSS_ok _ ha hb]

theorem exec_mod_zero (hzero : vb.toNat = 0) :
    exec (.mod (.reg r) a b) s = .next (s.raiseFault .divZero 0) := by
  rw [exec, execMod, withDSS_ok _ ha hb, if_pos hzero, fault_eq]

theorem exec_mod_ok (hpos : vb.toNat ≠ 0) :
    exec (.mod (.reg r) a b) s = writeBack s r (aluMod va vb) 4 := by
  rw [exec, execMod, withDSS_ok _ ha hb, if_neg hpos]

theorem exec_and_ok : exec (.and (.reg r) a b) s = writeBack s r (aluAnd va vb) 4 := by
  rw [exec, execAnd, withDSS_ok _ ha hb]

theorem exec_or_ok : exec (.or (.reg r) a b) s = writeBack s r (aluOr va vb) 4 := by
  rw [exec, execOr, withDSS_ok _ ha hb]

end

/-! ## The statements -/

/-- Settles O25: `add` is the write-back of the sum, taken modulo 32768. -/
theorem addWraps : Obligations.AddWraps := by
  intro s r a b va vb ha hb
  obtain ⟨t, ht, hval, hpc, hframe⟩ := writeBack_spec s r (aluAdd va vb) 4
  exact ⟨t, (exec_add_ok r ha hb).trans ht, hval ▸ toNat_aluAdd va vb, hpc, hframe⟩

/-- Settles O26: `mult` is the write-back of the product, taken modulo 32768. -/
theorem multWraps : Obligations.MultWraps := by
  intro s r a b va vb ha hb
  obtain ⟨t, ht, hval, hpc, hframe⟩ := writeBack_spec s r (aluMult va vb) 4
  exact ⟨t, (exec_mult_ok r ha hb).trans ht, hval ▸ toNat_aluMult va vb, hpc, hframe⟩

/-- Settles O27: a divisor of 0 raises `DIV_ZERO` on the state as it stands; any other leaves a
remainder below it, which is written back. -/
theorem modIsRemainder : Obligations.ModIsRemainder := by
  intro s r a b va vb ha hb
  constructor
  · intro hzero
    exact ⟨_, exec_mod_zero r ha hb hzero, faultTaken_raiseFault s _ 0⟩
  · intro hpos
    obtain ⟨t, ht, hval, hpc, hframe⟩ := writeBack_spec s r (aluMod va vb) 4
    have hrem : (t.reg r).toNat = va.toNat % vb.toNat := hval ▸ toNat_aluMod va vb
    have hlt : (t.reg r).toNat < vb.toNat := hrem ▸ Nat.mod_lt _ (Nat.pos_of_ne_zero hpos)
    exact ⟨t, (exec_mod_ok r ha hb hpos).trans ht, hrem, hlt, hpc, hframe⟩

/-- Settles O28: `and` and `or` are write-backs of the bitwise results. -/
theorem andOrActBitByBit : Obligations.AndOrActBitByBit := by
  intro s r a b va vb ha hb
  constructor
  · obtain ⟨t, ht, hval, hpc, hframe⟩ := writeBack_spec s r (aluAnd va vb) 4
    exact ⟨t, (exec_and_ok r ha hb).trans ht, hpc, hframe, hval ▸ getLsbD_aluAnd va vb⟩
  · obtain ⟨t, ht, hval, hpc, hframe⟩ := writeBack_spec s r (aluOr va vb) 4
    exact ⟨t, (exec_or_ok r ha hb).trans ht, hpc, hframe, hval ▸ getLsbD_aluOr va vb⟩

/-- Settles O29: `not` is the write-back of the 15-bit complement, whose number is 32767 less the
value's. -/
theorem notComplements : Obligations.NotComplements := by
  intro s r a va ha
  obtain ⟨t, ht, hval, hpc, hframe⟩ := writeBack_spec s r (aluNot va) 3
  exact ⟨t, (exec_not_ok r ha).trans ht, hval ▸ toNat_aluNot va, hpc, hframe⟩

end Sys2Proof.Machine
end

section
/-!
PROOFS. The statements of the family 46_memory_access: `rmem` and `wmem` (R190, R191).
-/

namespace Sys2Proof.Machine

/-! ## The outcomes of `rmem` on an address that resolves -/

section
variable {s : State} {a : Src} {va : Word} (r : RegIdx) (ha : s.resolve a = .ok va)
include ha

theorem exec_rmem_wide (hwide : 32767 < (s.mem.read va.toNat).toNat) :
    exec (.rmem (.reg r) a) s = .next (s.raiseFault .wideValue (s.mem.read va.toNat)) := by
  rw [exec, execRmem, withDS_ok _ ha, withWord_wide _ hwide, fault_eq]

theorem exec_rmem_narrow (hnarrow : (s.mem.read va.toNat).toNat ≤ 32767) :
    exec (.rmem (.reg r) a) s = writeBack s r (low15 (s.mem.read va.toNat)) 3 := by
  rw [exec, execRmem, withDS_ok _ ha, withWord_narrow _ hnarrow]

end

/-! ## What a write of one cell leaves unchanged -/

/-- Canonical memory is needed here: only then does a write replace the one entry that lists its
address (log entry 1). -/
theorem memKeptBut_writeCell_advance {s : State} (hm : s.MemWf) (a : Word) (c : Cell)
    (words : Nat) : MemKeptBut a.toNat s ((s.writeCell a c).advance words) :=
  fun _ hne => Memory.read_write_of_ne c hm hne

/-! ## The statements -/

/-- Settles O30: a wide cell raises `WIDE_VALUE` on the state as it stands; a narrow one is written
back by its low 15 bits, which hold its whole number. -/
theorem rmemReadsCell : Obligations.RmemReadsCell := by
  intro s r a va ha
  constructor
  · intro hwide
    exact ⟨_, exec_rmem_wide r ha hwide, faultTaken_raiseFault s _ _⟩
  · intro hnarrow
    obtain ⟨t, ht, hval, hpc, hframe⟩ := writeBack_spec s r (low15 (s.mem.read va.toNat)) 3
    exact ⟨t, (exec_rmem_narrow r ha hnarrow).trans ht, hval ▸ toNat_low15 hnarrow, hpc, hframe⟩

/-- Settles O31: the written cell reads what was written, a Word widened to a cell, and the write
touches memory alone. -/
theorem wmemWritesCell : Obligations.WmemWritesCell := by
  intro s a b va vb hm ha hb
  have hcell : ((s.mem.write va.toNat (zext16 vb)).read va.toNat).toNat = vb.toNat := by
    rw [Memory.read_write_same _ hm, toNat_zext16]
  have hkept := memKeptBut_writeCell_advance hm va (zext16 vb) 3
  refine ⟨_, exec_wmem_ok ha hb, hcell, hkept, rfl, ?_⟩
  simp [RegsKept, StatusKept, LatchAndHostKept]

end Sys2Proof.Machine
end

section
/-!
PROOFS. The statements of the family 47_call_return: `call` and `ret` (R200, R201).
-/

namespace Sys2Proof.Machine

/-! ## The outcomes of `call` and `ret` -/

theorem exec_call_room {s : State} {a : Src} {va : Word} (ha : s.resolve a = .ok va)
    (hroom : s.stackFull = false) :
    exec (.call a) s = .next ((s.push (s.next 2)).jump va) := by
  rw [exec, execCall, withSrc_ok _ ha, withPush_room _ _ hroom]

theorem exec_call_full {s : State} {a : Src} {va : Word} (ha : s.resolve a = .ok va)
    (hfull : s.stackFull = true) :
    exec (.call a) s = .next (s.raiseFault .stackOverflow 0) := by
  rw [exec, execCall, withSrc_ok _ ha, withPush_full _ _ hfull, fault_eq]

theorem exec_ret_empty {s : State} (hs : s.stack = []) :
    exec .ret s = .next (s.haltWith .retEmpty) := by
  simp only [exec, execRet, hs]

theorem exec_ret_cons {s : State} {top : Cell} {rest : List Cell} (hs : s.stack = top :: rest) :
    exec .ret s = .next { s with stack := rest, pc := top } := by
  simp only [exec, execRet, hs]

/-- `ret` undoes the push and the jump of a `call`: what stays is the pc moved past the `call`. -/
theorem exec_ret_push_jump (s : State) (v : Word) (words : Nat) :
    exec .ret ((s.push (s.next words)).jump v) = .next (s.advance words) :=
  exec_ret_cons rfl

/-! ## What `call` and `ret` leave unchanged -/

/-- A `call` that completes changes the stack and the pc alone (R200). -/
theorem frameOfStackWrite_push_jump (s : State) (c : Cell) (v : Word) :
    FrameOfStackWrite s ((s.push c).jump v) := by
  simp [FrameOfStackWrite, RegsKept, MemKept, StatusKept, LatchAndHostKept]

/-- A `ret` that completes changes the stack and the pc alone (R201). -/
theorem frameOfStackWrite_popTo (s : State) (top : Cell) (rest : List Cell) :
    FrameOfStackWrite s { s with stack := rest, pc := top } := by
  simp [FrameOfStackWrite, RegsKept, State.reg, MemKept, StatusKept, LatchAndHostKept]

/-! ## The statements -/

/-- Settles O32: with room, `call` pushes `next` and then jumps; on a full stack the fault is raised
before the push. -/
theorem callPushesReturnAddress : Obligations.CallPushesReturnAddress := by
  intro s a va ha
  constructor
  · intro hroom
    have hfull : s.stackFull = false := Bool.eq_false_iff.mpr (mt State.stackFull_iff.mp hroom)
    exact ⟨_, exec_call_room ha hfull, rfl, State.toNat_pc_jump _ va,
      frameOfStackWrite_push_jump s _ va⟩
  · intro hlimit
    exact ⟨_, exec_call_full ha (State.stackFull_iff.mpr hlimit), faultTaken_raiseFault s _ 0⟩

/-- Settles O33: an empty stack is a halt with the pc kept, any other gives its top to the pc. -/
theorem retReturnsOrHalts : Obligations.RetReturnsOrHalts := by
  intro s
  constructor
  · intro hempty
    exact ⟨_, exec_ret_empty hempty, haltTaken_haltWith s .retEmpty⟩
  · intro top rest hs
    exact ⟨_, exec_ret_cons hs, rfl, rfl, frameOfStackWrite_popTo s top rest⟩

/-- Settles O34: a `call` and then a `ret` amount to an advance past the two words of the
`call`. -/
theorem callThenRet : Obligations.CallThenRet := fun s _ va ha hroom =>
  ⟨_, _, exec_call_room ha hroom, exec_ret_push_jump s va 2, rfl, rfl,
    frameOfPcWrite_advance s 2⟩

end Sys2Proof.Machine
end

section
/-!
PROOFS. The statements of the family 48_io: `out` (R210), the delivery that completes an `in`
(R213), and an `in` in its two events (R211, R212).
-/

namespace Sys2Proof.Machine

/-! ## `out` -/

theorem exec_out_ok {s : State} {a : Src} {va : Word} (ha : s.resolve a = .ok va) :
    exec (.out a) s = .next ((s.outWrite va).advance 2) := by
  rw [exec, execOut, withSrc_ok _ ha]

/-- Settles O35: the value goes to the end of the output, and the pc is `next`. -/
theorem outEmitsValue : Obligations.OutEmitsValue := fun s _ va ha =>
  ⟨(s.outWrite va).advance 2, exec_out_ok ha, rfl, rfl, fun _ => rfl, rfl, fun _ => rfl,
    ⟨rfl, rfl, rfl, rfl, rfl⟩, ⟨rfl, rfl, rfl, rfl⟩⟩

/-! ## Deliver -/

/-- Every host operation but the status read is enabled at the wait alone (R250). -/
theorem HostOp.enabled_iff_waitInput {op : HostOp} (hop : op ≠ .readStatus) {st : RunState} :
    op.enabled st = true ↔ st = .waitInput := by
  cases op with
  | readStatus => exact absurd rfl hop
  | deliver | snapshot | restore | writeReg7 => exact decide_eq_true_iff

/-- At the wait every host operation is enabled (R250). -/
theorem HostOp.enabled_waitInput (op : HostOp) : op.enabled .waitInput = true := by
  cases op <;> rfl

theorem State.deliver_narrow (s : State) {c : Nat} (hc : c ≤ 32767) :
    s.deliver c
      = { (s.setReg s.inDest (BitVec.ofNat 15 c)).advance 2 with runState := .running } :=
  if_neg (Nat.not_lt.mpr hc)

theorem State.deliver_wide (s : State) {c : Nat} (hc : 32767 < c) :
    s.deliver c = s.raiseFault .wideValue (BitVec.ofNat 16 (c % 65536)) :=
  if_pos hc

theorem toNat_ofNat_word {n : Nat} (h : n ≤ 32767) : (BitVec.ofNat 15 n).toNat = n :=
  Nat.mod_eq_of_lt (Nat.lt_succ_of_le h)

/-- Settles O37: a narrow code point is a write of the latched register that runs on, a wide one is
the fault of R232. -/
theorem deliverCompletesIn : Obligations.DeliverCompletesIn := by
  intro s c
  refine ⟨HostOp.enabled_iff_waitInput (by simp), rfl, fun hc => ?_, fun hc => ?_⟩
  · rw [State.deliver_narrow s hc]
    refine ⟨?_, rfl, rfl, fun q hq => State.reg_setReg_of_ne s _ hq, rfl, fun _ => rfl, rfl, rfl,
      rfl, rfl, ⟨rfl, rfl, rfl, rfl⟩, rfl⟩
    calc ((s.setReg s.inDest (BitVec.ofNat 15 c)).reg s.inDest).toNat
      _ = (BitVec.ofNat 15 c).toNat := by rw [State.reg_setReg_same]
      _ = c := toNat_ofNat_word hc
  · have hinfo : (BitVec.ofNat 16 (c % 65536)).toNat = c % 65536 := Nat.mod_mod c 65536
    have hfault := faultTaken_raiseFault s .wideValue (BitVec.ofNat 16 (c % 65536))
    rwa [hinfo, ← State.deliver_wide s hc] at hfault

/-- Settles O46: whichever the operation is, it is enabled at the wait. -/
theorem hostTurnTakesNextOperation : Obligations.HostTurnTakesNextOperation := fun s op _ hw hq =>
  (step_of_not_running (by simp [hw])).trans
    (hostTurn_of_enabled hq (hw ▸ HostOp.enabled_waitInput op))

/-! ## `in` -/

/-- `s` waiting to deliver to register `r` (R212). -/
def State.waitFor (s : State) (r : RegIdx) : State :=
  { s with inDest := r, runState := .waitInput }

theorem exec_inp_reg (s : State) (r : RegIdx) : exec (.inp (.reg r)) s = .next (s.waitFor r) := rfl

/-- Settles O38: the first step latches `r`, the second is the delivery to the latched register. -/
theorem inThenDeliver : Obligations.InThenDeliver := by
  intro s r rest c ops hr hd hq hc
  have hin : step s = .next (s.waitFor r) :=
    (stepRunsDecoded s _ rest hr hd).trans (exec_inp_reg s r)
  have hdeliver : step (s.waitFor r) = .next ({ s.waitFor r with hostOps := ops }.deliver c) :=
    hostTurnTakesNextOperation (s.waitFor r) (.deliver c) ops rfl hq
  obtain ⟨-, -, hnarrow, -⟩ := deliverCompletesIn { s.waitFor r with hostOps := ops } c
  obtain ⟨hreg, hpc, hrun, hregs, hstack, hmem, -, -, -, -, ⟨-, -, hops, -⟩, hout⟩ := hnarrow hc
  exact ⟨_, _, hin, rfl, rfl, hdeliver, hrun, hreg, hpc, hops, hregs, hstack, hmem, hout⟩

end Sys2Proof.Machine
end

section
/-!
PROOFS. The statements of the family 60_exceptions about Snapshot, Restore and WriteReg7 (R252 to
R255), and the two ways a run halts (R231).
-/

namespace Sys2Proof.Machine

/-! ## A field as plain numbers and back -/

theorem map_toNat_map_ofNat {w : Nat} {l : List Nat} (h : ∀ v ∈ l, v < 2 ^ w) :
    (l.map (BitVec.ofNat w)).map BitVec.toNat = l := by
  rw [List.map_map]
  exact (List.map_congr_left fun v hv => Nat.mod_eq_of_lt (h v hv)).trans l.map_id'

theorem map_ofNat_map_toNat {w : Nat} (l : List (BitVec w)) :
    (l.map BitVec.toNat).map (BitVec.ofNat w) = l := by
  simp [Function.comp_def]

theorem lt_of_mem_map_toNat {w : Nat} {l : List (BitVec w)} {v : Nat}
    (h : v ∈ l.map BitVec.toNat) : v < 2 ^ w := by
  obtain ⟨c, -, rfl⟩ := List.mem_map.mp h
  exact c.isLt

/-! ## Snapshot -/

theorem Memory.getElem?_toCells (m : Memory) {a : Nat} (ha : a < 32768) :
    m.toCells[a]? = some (m.read a) := by
  simp [Memory.toCells, Config.memWords_eq, ha]

theorem State.snapshot_mem (s : State) : s.snapshot.mem = s.mem.toCells.map BitVec.toNat := by
  rw [State.snapshot]

theorem State.length_snapshot_x (s : State) : s.snapshot.x.length = 8 := by
  simp [State.snapshot]

theorem State.getElem?_snapshot_x (s : State) (r : RegIdx) :
    s.snapshot.x[r.val]? = some (s.reg r).toNat := by
  simp [State.snapshot, State.reg]

theorem State.length_snapshot_stack (s : State) : s.snapshot.stack.length = s.stack.length := by
  simp [State.snapshot]

theorem State.length_snapshot_mem (s : State) : s.snapshot.mem.length = 32768 := by
  rw [s.snapshot_mem, List.length_map, Memory.length_toCells, Config.memWords_eq]

/-- Settles O40: the stack's entry `k` from the top is the `k`th from the end of the snapshot's. -/
theorem snapshotListsState : Obligations.SnapshotListsState := by
  intro s
  refine ⟨HostOp.enabled_iff_waitInput (by simp), rfl,
    ⟨s.length_snapshot_x, s.getElem?_snapshot_x⟩, s.length_snapshot_stack, fun k hk => ?_,
    s.length_snapshot_mem, fun a ha => ?_, rfl⟩
  · have hback : s.stack.length - 1 - (s.stack.length - 1 - k) = k := by omega
    rw [State.snapshot, List.getElem?_reverse (by rw [List.length_map]; omega), List.length_map,
      hback, List.getElem?_map, List.getElem?_eq_getElem hk, Option.map_some]
  · rw [s.snapshot_mem, List.getElem?_map, Memory.getElem?_toCells s.mem ha, Option.map_some]

/-- Settles O41: the invariant bounds the pc and the stack, and the widths of words and cells bound
the rest. -/
theorem snapshotIsValid : Obligations.SnapshotIsValid := by
  intro s hi
  obtain ⟨hpc, hst, hfits, -⟩ := hi
  refine Snapshot.valid_iff_inRange.mpr ⟨hpc, ⟨s.length_snapshot_x, ?_⟩, ?_, ?_,
    s.length_snapshot_mem, ?_⟩
  · intro v hv
    have := lt_of_mem_map_toNat hv
    omega
  · intro v hv
    obtain ⟨c, hc, rfl⟩ := List.mem_map.mp (List.mem_reverse.mp hv)
    exact hst c hc
  · rw [s.length_snapshot_stack]
    exact StackCapacity.fits_iff.mp hfits
  · intro v hv
    rw [s.snapshot_mem] at hv
    have := lt_of_mem_map_toNat hv
    omega

/-! ## Restore -/

theorem performOp_restore_inRange {s : State} {p : Snapshot}
    (hp : SnapshotInRange p s.stackCapacity) :
    performOp s (.restore (some p)) = (s.restoreFrom p).reply .restored := by
  simp only [performOp, restoreAccepts, if_pos (Snapshot.valid_iff_inRange.mpr hp)]

theorem performOp_restore_refused {s : State} {p : Snapshot}
    (hp : ¬ SnapshotInRange p s.stackCapacity) :
    performOp s (.restore (some p)) = s.reply .persistenceError := by
  simp only [performOp, restoreAccepts, if_neg (mt Snapshot.valid_iff_inRange.mp hp)]

section
variable {p : Snapshot} {cap : StackCapacity} (hp : SnapshotInRange p cap) (s : State)
include hp

theorem State.toNat_pc_restoreFrom : (s.restoreFrom p).pc.toNat = p.pc := by
  obtain ⟨hpc, -⟩ := hp
  exact Nat.mod_eq_of_lt (Nat.lt_of_le_of_lt hpc (by decide))

theorem State.reg_restoreFrom (r : RegIdx) :
    p.x[r.val]? = some ((s.restoreFrom p).reg r).toNat := by
  obtain ⟨-, ⟨hlen, hx⟩, -⟩ := hp
  have hr : r.val < p.x.length := r.isLt.trans_eq hlen.symm
  have hle : p.x[r.val] ≤ 32767 := hx _ (List.getElem_mem hr)
  have hword : (s.restoreFrom p).reg r = BitVec.ofNat 15 p.x[r.val] := by
    simp [State.restoreFrom, State.reg, hr]
  rw [List.getElem?_eq_getElem hr, hword, toNat_ofNat_word hle]

theorem State.stack_restoreFrom : ((s.restoreFrom p).stack.map BitVec.toNat).reverse = p.stack := by
  obtain ⟨-, -, hst, -⟩ := hp
  rw [State.restoreFrom, List.map_reverse, List.reverse_reverse]
  exact map_toNat_map_ofNat fun v hv => Nat.lt_of_le_of_lt (hst v hv) (by decide)

theorem State.read_mem_restoreFrom {a : Nat} (ha : a < 32768) :
    p.mem[a]? = some ((s.restoreFrom p).mem.read a).toNat := by
  obtain ⟨-, -, -, -, hlen, hmem⟩ := hp
  have ha' : a < p.mem.length := ha.trans_eq hlen.symm
  have hle : p.mem[a] ≤ 65535 := hmem _ (List.getElem_mem ha')
  have hcell : (s.restoreFrom p).mem.read a = BitVec.ofNat 16 p.mem[a] := by
    rw [State.restoreFrom, Memory.read_ofCells a (by simp [hlen, Config.memWords_eq])]
    simp [ha']
  rw [List.getElem?_eq_getElem ha', hcell, BitVec.toNat_ofNat, Nat.mod_eq_of_lt (by omega)]

end

/-- Settles O42: an accepted snapshot's numbers fit the fields they are narrowed to. -/
theorem restoreReplacesOrRefuses : Obligations.RestoreReplacesOrRefuses := by
  refine ⟨fun p cap => Snapshot.valid_iff_inRange, fun s =>
    ⟨fun p => HostOp.enabled_iff_waitInput (by simp), fun p hp => ?_,
      fun p hp => performOp_restore_refused hp, rfl⟩⟩
  exact ⟨_, performOp_restore_inRange hp, s.toNat_pc_restoreFrom hp, s.reg_restoreFrom hp,
    s.stack_restoreFrom hp, fun a => s.read_mem_restoreFrom hp, rfl, rfl, rfl, rfl, rfl, rfl, rfl⟩

/-! ## Snapshot and Restore (R255) -/

/-- Restoring a state's own snapshot gives the state back, but RUNNING. -/
theorem State.restoreFrom_snapshot {s : State} (hm : s.MemWf) :
    s.restoreFrom s.snapshot = { s with runState := .running } := by
  have hpc : BitVec.ofNat 16 s.pc.toNat = s.pc := by simp
  have hx : (Vector.ofFn fun r : Fin 8 => BitVec.ofNat 15 (s.snapshot.x.getD r.val 0)) = s.x :=
    Vector.ext fun i hi => by
      simp [List.getD, s.getElem?_snapshot_x ⟨i, hi⟩, State.reg]
  have hstack : (s.snapshot.stack.map (BitVec.ofNat 16)).reverse = s.stack := by
    rw [State.snapshot, List.map_reverse, List.reverse_reverse, map_ofNat_map_toNat]
  have hmem : Memory.ofCells 0 (s.snapshot.mem.map (BitVec.ofNat 16)) = s.mem := by
    rw [s.snapshot_mem, map_ofNat_map_toNat, Memory.ofCells_toCells hm]
  rw [State.restoreFrom, hx, hstack, hmem, State.snapshot, hpc]

/-- In RUNNING at an `in` that names a register, the step enters the wait (R212). -/
theorem step_of_inp {s : State} {r : RegIdx} (hr : s.runState = .running)
    (hpc : s.pc.toNat ≤ 32766) (hop : s.mem.read s.pc.toNat = 20)
    (hreg : s.mem.read (s.pc.toNat + 1) = regCell r) :
    step s = .next (s.waitFor r) := by
  have hfit : s.pc.toNat + (encode (.inp (.reg r))).length ≤ 32768 := Nat.add_le_add_right hpc 2
  refine (stepRunsWordsInMemory s (.inp (.reg r)) hr rfl hfit fun k hk => ?_).trans
    (exec_inp_reg s r)
  match k, hk with
  | 0, _ => exact congrArg some hop.symm
  | 1, _ => exact congrArg some hreg.symm

/-- A state that waits already waits for its latched register. -/
theorem State.waitFor_of_waiting {s : State} (hw : s.runState = .waitInput) :
    s.waitFor s.inDest = s := by
  rw [State.waitFor, ← hw]

/-- An earlier report takes no part in a delivery. -/
theorem State.deliver_reply (s : State) (r : HostReply) (c : Nat) :
    (s.reply r).deliver c = { s.deliver c with replies := s.replies ++ [r] } := by
  unfold State.deliver
  split <;> rfl

/-- Settles O43: the restored state is the waiting one but RUNNING, at the `in` it waits at, so the
next step waits again with the same register latched. -/
theorem snapshotRestoreRoundTrip : Obligations.SnapshotRestoreRoundTrip := by
  intro s hi hw
  have hrange := Snapshot.valid_iff_inRange.mp (snapshotIsValid s hi)
  obtain ⟨-, -, -, hm, hwait, -⟩ := hi
  obtain ⟨hpc, hop, hreg⟩ := hwait hw
  have hrestored : performOp s (.restore (some s.snapshot))
      = { s.reply .restored with runState := .running } := by
    rw [performOp_restore_inRange hrange, State.restoreFrom_snapshot hm]
    rfl
  refine ⟨s.reply .restored, ?_, rfl, s.deliver_reply .restored⟩
  calc step (performOp s (.restore (some s.snapshot)))
    _ = step { s.reply .restored with runState := .running } := by rw [hrestored]
    _ = .next ((s.reply .restored).waitFor s.inDest) := step_of_inp rfl hpc hop hreg
    _ = .next (s.reply .restored) :=
      congrArg _ (State.waitFor_of_waiting (s := s.reply .restored) hw)

/-! ## WriteReg7 -/

theorem performOp_writeReg7_inRange (s : State) {v : Int} (h : 0 ≤ v ∧ v ≤ 32767) :
    performOp s (.writeReg7 (some v)) = (s.writeReg7 v).reply .reg7Written := by
  simp only [performOp, reg7Accepts, if_pos h]

theorem performOp_writeReg7_refused (s : State) {v : Int} (h : ¬ (0 ≤ v ∧ v ≤ 32767)) :
    performOp s (.writeReg7 (some v)) = s.reply .reg7Refused := by
  simp only [performOp, reg7Accepts, if_neg h]

/-- Settles O44: an integer in 0..32767 is a word, and the write is a register write. -/
theorem writeReg7WritesOrRefuses : Obligations.WriteReg7WritesOrRefuses := by
  intro s
  refine ⟨fun v => HostOp.enabled_iff_waitInput (by simp), fun v hlo hhi => ?_,
    fun v hout => performOp_writeReg7_refused s (by omega), rfl⟩
  refine ⟨_, performOp_writeReg7_inRange s ⟨hlo, hhi⟩, ?_,
    fun q hq => State.reg_setReg_of_ne s _ hq, rfl, rfl, fun _ => rfl, ⟨rfl, rfl, rfl, rfl, rfl⟩,
    rfl, rfl, rfl⟩
  have hword : (BitVec.ofNat 15 v.toNat).toNat = v.toNat := toNat_ofNat_word (by omega)
  rw [State.reg_reply, State.writeReg7, State.reg_setReg_same, hword, Int.toNat_of_nonneg hlo]

/-! ## Halting -/

/-- The effects that halt a running core are those of `halt` and of `ret` on an empty stack. -/
theorem Effect.instr_of_halted {i : Instr} {s t : State} (h : Effect i s t)
    (hr : s.runState = .running) (ht : t.runState = .halted) :
    i = .halt ∨ (i = .ret ∧ s.stack = []) := by
  cases h with
  | haltNow hi => exact .inl hi
  | retHalt hi hs => exact .inr ⟨hi, hs⟩
  | fault | wait => cases ht
  | regWrite | popReg | store | pushWord | callTo | jumpTo | advance | retTo | emit =>
    cases hr.symm.trans ht

/-- Settles O56: no other effect halts, and both of these do. -/
theorem onlyHaltAndEmptyRetHalt : Obligations.OnlyHaltAndEmptyRetHalt := by
  intro i s t hr h
  refine ⟨(exec_effect h).instr_of_halted hr, ?_⟩
  rintro (rfl | ⟨rfl, hs⟩)
  · cases (exec_halt s).symm.trans h
    rfl
  · cases (exec_ret_empty hs).symm.trans h
    rfl

end Sys2Proof.Machine
end

section
/-!
PROOFS. The statements of the family 70_reset_and_hazards: what a load puts in memory (R51, R271),
and that loaded and reset machines meet the invariant (R270).
-/

namespace Sys2Proof.Machine

/-! ## The cells of an image -/

/-- A cell is its low byte and 256 times its high byte (R51). -/
theorem toNat_cellOfBytes (lo hi : Byte) :
    (cellOfBytes lo hi).toNat = lo.toNat + 256 * hi.toNat := by
  have hlo := lo.isLt
  have hhi := hi.isLt
  have hor := Nat.shiftLeft_add_eq_or_of_lt hlo hi.toNat
  simp only [cellOfBytes, BitVec.toNat_or, BitVec.toNat_shiftLeft, BitVec.toNat_setWidth]
  rw [Nat.mod_eq_of_lt (by omega), Nat.mod_eq_of_lt (a := hi.toNat) (by omega),
    Nat.mod_eq_of_lt (by rw [Nat.shiftLeft_eq]; omega), Nat.or_comm, ← hor, Nat.shiftLeft_eq]
  omega

theorem length_cellsOfBytes (bs : List Byte) : (cellsOfBytes bs).length = bs.length / 2 := by
  induction bs using cellsOfBytes.induct with
  | case1 lo hi bs ih =>
    rw [cellsOfBytes, List.length_cons, ih, List.length_cons, List.length_cons]
    omega
  | case2 bs hbs =>
    match bs, hbs with
    | [], _ => rfl
    | [_], _ => simp [cellsOfBytes]
    | lo :: hi :: bs, hbs => exact absurd rfl (hbs lo hi bs)

/-- Cell `k` of an image is made of its bytes `2k` and `2k+1` (R51). -/
theorem getElem?_cellsOfBytes {bs : List Byte} {k : Nat} {lo hi : Byte}
    (hlo : bs[2 * k]? = some lo) (hhi : bs[2 * k + 1]? = some hi) :
    (cellsOfBytes bs)[k]? = some (cellOfBytes lo hi) := by
  induction k generalizing bs with
  | zero =>
    match bs, hlo, hhi with
    | _ :: _ :: _, rfl, rfl => rfl
  | succ k ih =>
    match bs, hlo, hhi with
    | _ :: _ :: bs, hlo, hhi => exact ih (bs := bs) hlo hhi

/-! ## Load -/

/-- The reset state with a load's memory and capacity (R270, R271). -/
def loadedState (cap : StackCapacity) (bs : List Byte) : State :=
  { State.reset with mem := Memory.ofCells 0 (cellsOfBytes bs), stackCapacity := cap }

theorem loadImage_even {cap : StackCapacity} {bs : List Byte} (heven : bs.length % 2 = 0)
    (hlen : bs.length ≤ 65536) : loadImage cap (some bs) = .ok (loadedState cap bs) := by
  simp only [loadImage, heven, Nat.not_lt.mpr hlen, ne_eq, not_true, if_false, loadedState]

/-- An image that is odd or too long does not load. -/
theorem loadImage_error {cap : StackCapacity} {bs : List Byte}
    (h : bs.length % 2 = 1 ∨ 65536 < bs.length) : ∃ e, loadImage cap (some bs) = .error e := by
  rw [loadImage]
  split
  · exact ⟨_, rfl⟩
  · rw [if_pos (by omega)]
    exact ⟨_, rfl⟩

/-- A load succeeds only for an image of even length that fits. -/
theorem loadImage_ok {cap : StackCapacity} {image : Option (List Byte)} {s : State}
    (h : loadImage cap image = .ok s) :
    ∃ bs, image = some bs ∧ bs.length ≤ 65536 ∧ s = loadedState cap bs := by
  cases image with
  | none => cases h
  | some bs =>
    by_cases hbad : bs.length % 2 = 1 ∨ 65536 < bs.length
    · obtain ⟨e, he⟩ := loadImage_error (cap := cap) hbad
      cases he.symm.trans h
    · have hlen : bs.length ≤ 65536 := by omega
      cases (loadImage_even (by omega) hlen).symm.trans h
      exact ⟨bs, rfl, hlen, rfl⟩

theorem cellsOfBytes_fits {bs : List Byte} (hlen : bs.length ≤ 65536) :
    (cellsOfBytes bs).length ≤ Config.memWords := by
  rw [length_cellsOfBytes, Config.memWords_eq]
  omega

/-- What an address reads in a loaded memory: the image's cell, or 0 after them. -/
theorem read_loadedState (cap : StackCapacity) {bs : List Byte} (hlen : bs.length ≤ 65536)
    (k : Nat) : (loadedState cap bs).mem.read k = (cellsOfBytes bs).getD k 0 := by
  rw [loadedState, Memory.read_ofCells k (by have := cellsOfBytes_fits hlen; omega),
    if_pos (Nat.zero_le k), Nat.sub_zero, Memory.unlisted]

/-- Settles O47: an address reads the image's cell, made of its two bytes, or 0. -/
theorem loadFillsMemory : Obligations.LoadFillsMemory := by
  intro cap
  refine ⟨fun bs heven hlen => ⟨_, loadImage_even heven hlen, fun k lo hi hlo hhi => ?_,
    fun k hk => ?_, rfl⟩, fun bs hbad => loadImage_error hbad, _, rfl⟩
  · rw [read_loadedState cap hlen, List.getD, getElem?_cellsOfBytes hlo hhi, Option.getD_some,
      toNat_cellOfBytes]
  · rw [read_loadedState cap hlen]
    exact List.getD_eq_default _ _ (by rwa [length_cellsOfBytes])

/-! ## The invariant at the start -/

/-- A loaded machine has an empty stack, canonical memory and cleared status fields. -/
theorem loadedState_inv (cap : StackCapacity) {bs : List Byte} (hlen : bs.length ≤ 65536) :
    (loadedState cap bs).Inv :=
  ⟨Nat.zero_le _, (fun _ h => nomatch h), StackCapacity.fits_iff.mpr fun _ _ => Nat.zero_le _,
    Memory.ofCells_wf (cellsOfBytes_fits hlen), State.waitsAtIn_of_ne (nofun),
    State.StatusClear.coherent ⟨rfl, rfl, rfl, rfl⟩ (.inl rfl)⟩

/-- Settles O48: whatever loads is an image that fits. -/
theorem loadedStateMeetsInvariant : Obligations.LoadedStateMeetsInvariant := by
  intro cap image s h
  obtain ⟨bs, -, hlen, rfl⟩ := loadImage_ok h
  exact loadedState_inv cap hlen

/-- Settles O50: the reset state is what loading the empty image gives (R271). -/
theorem resetMeetsInvariant : Obligations.ResetMeetsInvariant :=
  loadedState_inv .unbounded (bs := []) (Nat.zero_le _)

end Sys2Proof.Machine
end
